-- ==== Sys2Proof/Word.lean ====
section
/-! DEFINITION. The word types of the machine (R5, R12): byte, halfword, word, double word, register number. -/

namespace Sys2Proof

/-- 8 bits, the smallest unit an instruction moves (R12, R41). -/
abbrev Byte := BitVec 8

/-- 16 bits (R12); also the immediate field of format I (R72). -/
abbrev Half := BitVec 16

/-- 32 bits: a general register, HI, LO, PC, an address, an instruction (R5, R12, R70). -/
abbrev Word := BitVec 32

/-- 64 bits: the pair HI || LO of a product (R161, R162). -/
abbrev DWord := BitVec 64

/-- The number of a general register, 0 to 31 (R20). -/
abbrev Reg := Fin 32

end Sys2Proof
end

