-- ==== Sys2Proof/Config.lean ====
section
/-! DEFINITION. What the spec leaves to a parameter (R5) and the free values it leaves open (`any32`, R7). -/

namespace Sys2Proof

/-- ENDIAN, the byte order of data and of instruction fetch (R42, R43, D2). -/
inductive Endian where
  | big
  | little
deriving DecidableEq, Repr

/-- DIV_RESULT_PLACEMENT (R163, D12, C4): which of HI and LO receives the quotient. -/
inductive DivPlacement where
  /-- The source's text: LO gets the remainder, HI the quotient. -/
  | asPrinted
  /-- LO gets the quotient, HI the remainder. -/
  | conventional
deriving DecidableEq, Repr

/-- The kinds of access of R50. -/
inductive AccessKind where
  | fetch
  | load
  | store
deriving DecidableEq, Repr

/-- A run of byte addresses, `first` to `last` inclusive, and the kinds of access it admits. A list of regions
describes any predicate Mapped(addr, kind) of R50 (log entry 3). -/
structure Region where
  first : Word
  last : Word
  fetch : Bool
  load : Bool
  store : Bool
deriving DecidableEq, Repr

/-- The OPEN parameters of R5, constant for a run. -/
structure Params where
  /-- ENDIAN. -/
  endian : Endian
  /-- Mapped(addr, kind). -/
  map : List Region
  /-- RESET_PC; the platform makes it a multiple of 4 (R35, D5). -/
  resetPc : Word
  /-- HALT_PC: a step that begins there ends the run (R214). -/
  haltPc : Word
  /-- DIV_RESULT_PLACEMENT. -/
  divPlacement : DivPlacement
deriving DecidableEq, Repr

/-- DESIGN CHOICE (log entries 2 to 6), unsafe for a claim that starts from `State.reset`: the parameter values
`State.reset` takes. Claims over all states hold for every value of the parameters. -/
def Params.default : Params where
  endian := .big
  map := [{ first := 0, last := 0xFFFFFFFF, fetch := true, load := true, store := true }]
  resetPc := 0x00400000
  haltPc := 0xFFFFFFFF
  divPlacement := .asPrinted

/-- HILO_GUARD (R5, R232, D15): how many instructions after mfhi (mflo) must not write HI (LO). -/
def Config.hiLoGuard : Nat := 2

/-- The k-th draw `any32` of a run (R7): an unspecified 32-bit value, under no law. It has no body, so nothing can be
proved of it (log entry 10). -/
opaque Config.any32 : Nat → Word

end Sys2Proof
end

