-- ==== Sys2Proof/Machine/ByteOrder.lean ====
section
/-! DEFINITION. The byte orders of R42: how the bytes at rising addresses make a halfword or a word, and back. -/

namespace Sys2Proof.Machine

/-- The halfword whose bytes at a and a+1 are `b0` and `b1` (R42). -/
def joinHalf (e : Endian) (b0 b1 : Byte) : Half :=
  match e with
  | .big => b0 ++ b1
  | .little => b1 ++ b0

/-- The word whose bytes at a to a+3 are `b0` to `b3` (R42). -/
def joinWord (e : Endian) (b0 b1 b2 b3 : Byte) : Word :=
  match e with
  | .big => b0 ++ b1 ++ b2 ++ b3
  | .little => b3 ++ b2 ++ b1 ++ b0

/-- Bits `8 i + 7` down to `8 i` of a word. -/
def byteLane (v : Word) (i : Nat) : Byte := v.extractLsb' (8 * i) 8

/-- `v` with byte lane `i` (bits `8 i + 7` down to `8 i`) replaced by `b`. -/
def setByteLane (v : Word) (i : Nat) (b : Byte) : Word :=
  (v &&& ~~~((0xFF#32) <<< (8 * i))) ||| (b.setWidth 32 <<< (8 * i))

/-- The two bytes of a halfword at rising addresses (R42). -/
def halfBytes (e : Endian) (v : Half) : List Byte :=
  match e with
  | .big => [v.extractLsb' 8 8, v.extractLsb' 0 8]
  | .little => [v.extractLsb' 0 8, v.extractLsb' 8 8]

/-- The four bytes of a word at rising addresses (R42). -/
def wordBytes (e : Endian) (v : Word) : List Byte :=
  match e with
  | .big => [byteLane v 3, byteLane v 2, byteLane v 1, byteLane v 0]
  | .little => [byteLane v 0, byteLane v 1, byteLane v 2, byteLane v 3]

end Sys2Proof.Machine
end

