-- ==== Sys2Proof/Machine/State.lean ====
section
/-! DEFINITION. The state of the machine (R34), its faults (R202), and the state after reset (R35, R230). -/

namespace Sys2Proof.Machine

/-- The two special registers of R25, as the info of HiLoHazard. -/
inductive HiLo where
  | hi
  | lo
deriving DecidableEq, Repr

/-- The faults of R202, each a terminal outcome of a step (R201). All are safe: a fault where a processor would go on
can only leave a claim unprovable (R13). -/
inductive Fault where
  /-- A misaligned address: raised by the fetch when the pc is no multiple of 4, by lh, lhu, lw (load) and sh, sw (store);
  the info is the address (R45, R46). Safe. -/
  | addressError (kind : AccessKind) (a : Word)
  /-- Raised by the fetch of a word that a store of this run has written; the info is the pc (R55). Safe. -/
  | fetchOfModifiedCode (a : Word)
  /-- An address that holds no memory for this kind of access: raised by the fetch and by every load and store; the info
  is the pc or the effective address (R50). Safe. -/
  | busError (kind : AccessKind) (a : Word)
  /-- Raised by decode: the fetched word is no instruction of R88; the info is the word (R80). Safe. -/
  | reservedInstruction (w : Word)
  /-- Raised by jalr with rs = 31; the info is its word (R186). Safe. -/
  | unpredictableOperands (w : Word)
  /-- Raised by add, addi, sub when the exact signed result does not fit 32 bits (R120). Safe. -/
  | integerOverflow
  /-- Raised by mult, multu, div, divu, mthi, mtlo when the register written has a running guard (R160, R232). Safe. -/
  | hiLoHazard (r : HiLo)
deriving DecidableEq, Repr

/-- Why there is no meaning for an instruction. -/
inductive Refusal where
  /-- Raised by an arm of exec whose instruction has no meaning yet; the model has no such arm. Safe. -/
  | notModelled (mnemonic : String)
deriving DecidableEq, Repr

/-- What the state records of a fault: its name and info, and the pc (R201). -/
structure FaultRecord where
  reason : Fault
  pc : Word
deriving DecidableEq, Repr

/-- Memory (R33): the bytes that differ from what an unlisted address reads as, by rising address. -/
abbrev Memory := List Host.Cell

/-- The state of R34. Register 0 has no storage (R21). -/
structure State where
  /-- The OPEN parameters of R5, which no step changes (log entry 1). -/
  params : Params
  /-- x[1] to x[31] (R20); x[r] is at index r - 1. -/
  gpr : Vector Word 31
  /-- HI (R25). -/
  hi : Word
  /-- LO (R25). -/
  lo : Word
  /-- The address of the instruction to execute (R27). -/
  pc : Word
  /-- Memory (R33). -/
  mem : Memory
  /-- hi_guard: how many coming instructions must not write HI (R31). -/
  hiGuard : Nat
  /-- lo_guard: how many coming instructions must not write LO (R31). -/
  loGuard : Nat
  /-- The word-aligned addresses that stores of this run have written, rising (R31). -/
  dirty : List Nat
  /-- The fault that stopped the machine, if one has (R31, R201). -/
  fault : Option FaultRecord
  /-- The model's own: how many `any32` draws the run has made (log entry 10). -/
  draws : Nat
deriving DecidableEq, Repr

/-- The state in which the host starts a run (R35, R215, R230): the platform's parameters and memory image, the drawn
register values, pc at RESET_PC, guards 0, dirty empty, no fault. -/
def State.boot (p : Params) (image : Memory) (gpr : Vector Word 31) (hi lo : Word) : State where
  params := p
  gpr := gpr
  hi := hi
  lo := lo
  pc := p.resetPc
  mem := image
  hiGuard := 0
  loGuard := 0
  dirty := []
  fault := none
  draws := 0

/-- The machine right after reset (R35). DESIGN CHOICE, unsafe for a claim that starts here: the parameters are
`Params.default` (log entries 2 to 6) and the registers whose reset value the spec leaves unspecified hold 0 (log
entries 7 and 8). -/
def State.reset : State := State.boot Params.default [] (Vector.replicate 31 0) 0 0

end Sys2Proof.Machine
end

