-- ==== Sys2Proof/Machine/Ops.lean ====
section
/-! DEFINITION. The named operations over registers and memory, the checks of an access, raising a fault, and the end
of an instruction. -/

namespace Sys2Proof.Machine

/-- The outcome of an instruction or a step. -/
abbrev Out := Host.Outcome State Fault Refusal

/-! ## General registers -/

/-- Read of a general register; register 0 reads 0 (R7, R21). -/
def State.x (s : State) (r : Reg) : Word :=
  if h : r = 0 then 0 else s.gpr[r.val - 1]'(by omega)

/-- Write of a general register; a write to register 0 is discarded (R7, R21). -/
def State.setX (s : State) (r : Reg) (v : Word) : State :=
  if h : r = 0 then s else { s with gpr := s.gpr.set (r.val - 1) v (by omega) }

/-! ## Memory -/

/-- What an address that memory does not list reads as. DESIGN CHOICE (log entry 9), unsafe for a claim that starts from
`State.reset`: the spec leaves the content of memory the platform did not load unspecified (R35, D4). -/
def Memory.unlisted : Byte := 0

/-- The byte at an address (R42, MemReadByte). -/
def Memory.read : Memory → Nat → Byte
  | [], _ => Memory.unlisted
  | (k, v) :: m, a => if k = a then v else Memory.read m a

/-- Memory with the byte at an address replaced (R42, MemWriteByte), in canonical form. -/
def Memory.write : Memory → Nat → Byte → Memory
  | [], a, b => if b = Memory.unlisted then [] else [(a, b)]
  | (k, v) :: m, a, b =>
    if a < k then (if b = Memory.unlisted then (k, v) :: m else (a, b) :: (k, v) :: m)
    else if a = k then (if b = Memory.unlisted then m else (a, b) :: m)
    else (k, v) :: Memory.write m a b

/-- The canonical form: addresses strictly rising and inside the address space of R40, no entry equal to what an
unlisted address reads as. -/
abbrev Memory.wf (m : Memory) : Prop :=
  m.Pairwise (fun c d => c.1 < d.1) ∧ ∀ c ∈ m, c.1 < 2 ^ 32 ∧ c.2 ≠ Memory.unlisted

/-- A rising list with `a` put in its place, once. -/
def insertRising (a : Nat) : List Nat → List Nat
  | [] => [a]
  | k :: l => if a < k then a :: k :: l else if a = k then k :: l else k :: insertRising a l

/-- The byte of memory at an address. -/
def State.byte (s : State) (a : Word) : Byte := Memory.read s.mem a.toNat

/-- The aligned word an address lies in, `a[31:2] || 00` (R42). -/
def wordBase (a : Word) : Word := a.extractLsb' 2 30 ++ 0#2

/-- The write of one byte by a store: the byte changes and its aligned word becomes dirty (R42). -/
def State.putByte (s : State) (a : Word) (b : Byte) : State :=
  { s with mem := Memory.write s.mem a.toNat b, dirty := insertRising (wordBase a).toNat s.dirty }

/-- The writes of a store, in order. -/
def State.putBytes (s : State) (ws : List (Word × Byte)) : State :=
  ws.foldl (fun t w => t.putByte w.1 w.2) s

/-- MemRead(a, 2) less its checks (R42). -/
def State.half (s : State) (a : Word) : Half :=
  joinHalf s.params.endian (s.byte a) (s.byte (a + 1))

/-- MemRead(a, 4) less its checks (R42). -/
def State.word (s : State) (a : Word) : Word :=
  joinWord s.params.endian (s.byte a) (s.byte (a + 1)) (s.byte (a + 2)) (s.byte (a + 3))

/-! ## The checks of an access -/

/-- A region admits an access of this kind to this byte. -/
def regionAdmits (k : AccessKind) (a : Word) (r : Region) : Bool :=
  r.first ≤ a && a ≤ r.last &&
    match k with
    | .fetch => r.fetch
    | .load => r.load
    | .store => r.store

/-- Mapped(a, kind) (R50). -/
def State.mapped (s : State) (k : AccessKind) (a : Word) : Bool := s.params.map.any (regionAdmits k a)

/-- The `n` byte addresses of an access at `a`. -/
def span (a : Word) (n : Nat) : List Word := (List.range n).map (fun i => a + BitVec.ofNat 32 i)

/-- The fault of a load or store at the effective address `a` that transfers `bytes`, if there is one: alignment first,
then Mapped for each byte transferred (R45, R50, R59). -/
def State.accessFault (s : State) (k : AccessKind) (a : Word) (align : Nat) (bytes : List Word) : Option Fault :=
  if a.toNat % align ≠ 0 then some (.addressError k a)
  else if bytes.all (s.mapped k) then none
  else some (.busError k a)

/-- The word at the pc has been written by a store of this run (R55). -/
def State.pcDirty (s : State) : Bool := s.dirty.contains (wordBase s.pc).toNat

/-- The fetch of the word at the pc: alignment, dirty, Mapped, transfer (R43, R46, R55, R59). -/
def State.fetchWord (s : State) : Except Fault Word :=
  if s.pc.toNat % 4 ≠ 0 then .error (.addressError .fetch s.pc)
  else if s.pcDirty then .error (.fetchOfModifiedCode s.pc)
  else if (span s.pc 4).all (s.mapped .fetch) then .ok (s.word s.pc)
  else .error (.busError .fetch s.pc)

/-! ## Raising a fault -/

/-- What a fault does to the state: the record (name, info, pc) is set, once, and nothing else changes (R201). This is
the machine's only exception mechanism: no vector, no saved register, no return (R200, R201). -/
def State.enterFault (s : State) (f : Fault) : State :=
  match s.fault with
  | some _ => s
  | none => { s with fault := some { reason := f, pc := s.pc } }

/-! ## The end of an instruction -/

/-- The address of the next sequential instruction (R7, R27). -/
def State.npc (s : State) : Word := s.pc + 4

/-- The end of an executed instruction: both guard counters run down by one (R32) and the pc goes to `target` (R28). -/
def State.goto (s : State) (target : Word) : State :=
  { s with pc := target, hiGuard := s.hiGuard - 1, loGuard := s.loGuard - 1 }

/-- The end of an instruction that is no jump: on to npc (R28). -/
def State.advance (s : State) : State := s.goto s.npc

/-- An executed mfhi starts the guard of HI (R32, R165). -/
def State.startHiGuard (s : State) : State := { s with hiGuard := Config.hiLoGuard }

/-- An executed mflo starts the guard of LO (R32, R167). -/
def State.startLoGuard (s : State) : State := { s with loGuard := Config.hiLoGuard }

/-! ## The shapes of an instruction's effect -/

/-- A result for a general register, and on to the next instruction. -/
def State.result (s : State) (r : Reg) (v : Word) : Out := .next (s.setX r v).advance

/-- A result that a signed overflow keeps from being written (R120). -/
def State.resultUnless (s : State) (overflow : Bool) (r : Reg) (v : Word) : Out :=
  if overflow then .fault .integerOverflow else s.result r v

/-- A load: the checks, then the register (R113). -/
def State.loadResult (s : State) (a : Word) (align : Nat) (bytes : List Word) (r : Reg) (v : Word) : Out :=
  match s.accessFault .load a align bytes with
  | some f => .fault f
  | none => s.result r v

/-- A store: the checks for every byte, then all the writes (R113). -/
def State.storeBytes (s : State) (a : Word) (align : Nat) (ws : List (Word × Byte)) : Out :=
  match s.accessFault .store a align (ws.map Prod.fst) with
  | some f => .fault f
  | none => .next (s.putBytes ws).advance

/-- check_hi (R160). -/
def State.checkHi (s : State) : Option Fault := if s.hiGuard > 0 then some (.hiLoHazard .hi) else none

/-- check_lo (R160). -/
def State.checkLo (s : State) : Option Fault := if s.loGuard > 0 then some (.hiLoHazard .lo) else none

/-- A write of HI alone (R166). -/
def State.writeHi (s : State) (v : Word) : Out :=
  match s.checkHi with
  | some f => .fault f
  | none => .next ({ s with hi := v } : State).advance

/-- A write of LO alone (R168). -/
def State.writeLo (s : State) (v : Word) : Out :=
  match s.checkLo with
  | some f => .fault f
  | none => .next ({ s with lo := v } : State).advance

/-- A write of HI and LO; the guard of HI is tested first (R160, R204). -/
def State.writeHiLo (s : State) (vhi vlo : Word) : Out :=
  match s.checkHi with
  | some f => .fault f
  | none =>
    match s.checkLo with
    | some f => .fault f
    | none => .next ({ s with hi := vhi, lo := vlo } : State).advance

/-- HI and LO each receive a fresh draw `any32` (R163, R164): the free values `Config.any32` at the next two places
(log entry 10). -/
def State.writeHiLoAny (s : State) : Out :=
  ({ s with draws := s.draws + 2 } : State).writeHiLo (Config.any32 s.draws) (Config.any32 (s.draws + 1))

/-- A quotient and a remainder into HI and LO, as DIV_RESULT_PLACEMENT says (R163, R164). -/
def State.writeQuotient (s : State) (q r : Word) : Out :=
  match s.params.divPlacement with
  | .asPrinted => s.writeHiLo q r
  | .conventional => s.writeHiLo r q

end Sys2Proof.Machine
end

