-- ==== Sys2Proof/Machine/Operands.lean ====
section
/-! DEFINITION. The operand forms: immediates (R76, R77), the one addressing mode (R100), the bytes a partial-word
transfer moves (R103, R107, R110, R112), shift amounts (R150), branch and jump targets (R180 to R185). -/

namespace Sys2Proof.Machine

/-- sext_32(imm) (R76). -/
def sextImm (imm : Half) : Word := imm.signExtend 32

/-- zext_32(imm) (R76). -/
def zextImm (imm : Half) : Word := imm.setWidth 32

/-- `imm || 0^16`, the operand of lui (R76, R138). -/
def upperImm (imm : Half) : Word := imm ++ 0#16

/-- The effective address, modulo 2^32 (R57, R100). -/
def State.effAddr (s : State) (rs : Reg) (imm : Half) : Word := s.x rs + sextImm imm

/-- The left part (lwl, swl) at address `a`: each byte transferred with its byte lane in the register, the byte at `a`
in lane 3 (R103, R110). -/
def leftLanes (e : Endian) (a : Word) : List (Word × Nat) :=
  match e with
  | .big => (List.range (4 - a.toNat % 4)).map (fun i => (a + BitVec.ofNat 32 i, 3 - i))
  | .little => (List.range (a.toNat % 4 + 1)).map (fun i => (a - BitVec.ofNat 32 i, 3 - i))

/-- The right part (lwr, swr) at address `a`: each byte transferred with its byte lane in the register, the byte at `a`
in lane 0 (R107, R112). -/
def rightLanes (e : Endian) (a : Word) : List (Word × Nat) :=
  match e with
  | .big => (List.range (a.toNat % 4 + 1)).map (fun i => (a - BitVec.ofNat 32 i, i))
  | .little => (List.range (4 - a.toNat % 4)).map (fun i => (a + BitVec.ofNat 32 i, i))

/-- `old` with each listed lane replaced by the byte of memory beside it (R103, R107). -/
def State.mergeLanes (s : State) (lanes : List (Word × Nat)) (old : Word) : Word :=
  lanes.foldl (fun r p => setByteLane r p.2 (s.byte p.1)) old

/-- The bytes of `v` that a partial-word store writes (R110, R112). -/
def laneBytes (lanes : List (Word × Nat)) (v : Word) : List (Word × Byte) :=
  lanes.map (fun p => (p.1, byteLane v p.2))

/-- The bytes that sb writes: the low 8 bits (R108). -/
def byteWrites (a v : Word) : List (Word × Byte) := [(a, v.setWidth 8)]

/-- The bytes that sh writes: the low 16 bits, in the byte order (R42, R109). -/
def halfWrites (e : Endian) (a v : Word) : List (Word × Byte) := (span a 2).zip (halfBytes e (v.setWidth 16))

/-- The bytes that sw writes, in the byte order (R42, R111). -/
def wordWrites (e : Endian) (a v : Word) : List (Word × Byte) := (span a 4).zip (wordBytes e v)

/-- The distance of a variable shift: the low five bits of the register (R150, D10). -/
def shiftAmount (v : Word) : Nat := (v.extractLsb' 0 5).toNat

/-- shl, logical left (R150). -/
def shl (v : Word) (n : Nat) : Word := v <<< n

/-- shrl, logical right (R150). -/
def shrl (v : Word) (n : Nat) : Word := v >>> n

/-- shra, arithmetic right (R150). -/
def shra (v : Word) (n : Nat) : Word := v.sshiftRight n

/-- The target of a taken branch, `npc + (sext_32(imm) << 2)` (R181). -/
def branchTarget (npc : Word) (imm : Half) : Word := npc + (sextImm imm <<< 2)

/-- The target of j and jal, `npc[31:28] || target || 00` (R77, R183). -/
def jumpTarget (npc : Word) (target : BitVec 26) : Word := npc.extractLsb' 28 4 ++ target ++ 0#2

end Sys2Proof.Machine
end

