-- ==== Sys2Proof/Machine/Flags.lean ====
section
/-! DEFINITION. The machine has no flags (R29). What stands in their place: the overflow conditions that fault (R120) and
the 0 or 1 that a comparison delivers into a register (R8, R134 to R137). -/

namespace Sys2Proof.Machine

/-- overflow_add (R120). -/
def overflowAdd (a b : Word) : Bool := a.msb == b.msb && (a + b).msb != a.msb

/-- overflow_sub (R120). -/
def overflowSub (a b : Word) : Bool := a.msb != b.msb && (a - b).msb != a.msb

/-- `c ? 1 : 0` as a 32-bit value (R8). -/
def flagWord (c : Bool) : Word := if c then 1 else 0

/-- signed(a) < signed(b) (R134). -/
def lessSigned (a b : Word) : Bool := decide (a.toInt < b.toInt)

/-- unsigned(a) < unsigned(b) (R135). -/
def lessUnsigned (a b : Word) : Bool := decide (a.toNat < b.toNat)

end Sys2Proof.Machine
end

