-- ==== Sys2Proof/Machine/Alu.lean ====
section
/-! DEFINITION. Arithmetic and logic (R120 to R139). -/

namespace Sys2Proof.Machine

/-- add (R121). -/
def execAdd (rd rs rt : Reg) (s : State) : Out :=
  s.resultUnless (overflowAdd (s.x rs) (s.x rt)) rd (s.x rs + s.x rt)

/-- addu (R122). -/
def execAddu (rd rs rt : Reg) (s : State) : Out := s.result rd (s.x rs + s.x rt)

/-- sub (R123). -/
def execSub (rd rs rt : Reg) (s : State) : Out :=
  s.resultUnless (overflowSub (s.x rs) (s.x rt)) rd (s.x rs - s.x rt)

/-- subu (R124). -/
def execSubu (rd rs rt : Reg) (s : State) : Out := s.result rd (s.x rs - s.x rt)

/-- addi (R125). -/
def execAddi (rt rs : Reg) (imm : Half) (s : State) : Out :=
  s.resultUnless (overflowAdd (s.x rs) (sextImm imm)) rt (s.x rs + sextImm imm)

/-- addiu (R126). -/
def execAddiu (rt rs : Reg) (imm : Half) (s : State) : Out := s.result rt (s.x rs + sextImm imm)

/-- and (R127). -/
def execAnd (rd rs rt : Reg) (s : State) : Out := s.result rd (s.x rs &&& s.x rt)

/-- andi (R128). -/
def execAndi (rt rs : Reg) (imm : Half) (s : State) : Out := s.result rt (s.x rs &&& zextImm imm)

/-- or (R129). -/
def execOr (rd rs rt : Reg) (s : State) : Out := s.result rd (s.x rs ||| s.x rt)

/-- ori (R130). -/
def execOri (rt rs : Reg) (imm : Half) (s : State) : Out := s.result rt (s.x rs ||| zextImm imm)

/-- xor (R131). -/
def execXor (rd rs rt : Reg) (s : State) : Out := s.result rd (s.x rs ^^^ s.x rt)

/-- xori (R132, C1). -/
def execXori (rt rs : Reg) (imm : Half) (s : State) : Out := s.result rt (s.x rs ^^^ zextImm imm)

/-- nor (R133). -/
def execNor (rd rs rt : Reg) (s : State) : Out := s.result rd (~~~(s.x rs ||| s.x rt))

/-- slt (R134). -/
def execSlt (rd rs rt : Reg) (s : State) : Out := s.result rd (flagWord (lessSigned (s.x rs) (s.x rt)))

/-- sltu (R135). -/
def execSltu (rd rs rt : Reg) (s : State) : Out := s.result rd (flagWord (lessUnsigned (s.x rs) (s.x rt)))

/-- slti (R136). -/
def execSlti (rt rs : Reg) (imm : Half) (s : State) : Out :=
  s.result rt (flagWord (lessSigned (s.x rs) (sextImm imm)))

/-- sltiu: the immediate is sign-extended, then the comparison is unsigned (R137, C6). -/
def execSltiu (rt rs : Reg) (imm : Half) (s : State) : Out :=
  s.result rt (flagWord (lessUnsigned (s.x rs) (sextImm imm)))

/-- lui (R138). -/
def execLui (rt : Reg) (imm : Half) (s : State) : Out := s.result rt (upperImm imm)

end Sys2Proof.Machine
end

