-- ==== Sys2Proof/Syntax.lean ====
section
/-! DEFINITION. The 50 instructions of R3, one constructor a row of spec/opcode_table.json, with operands in the order
of the assembler syntax of R83; and the raw fields of an instruction word (R71). -/

namespace Sys2Proof

/-- The instruction set (R3). `rs`, `rt`, `rd` are the registers `$s`, `$t`, `$d` (R75); `imm` is I, `shamt` is S,
`target` is A. -/
inductive Instr where
  -- loads and stores, R101 to R112
  | lb (rt rs : Reg) (imm : Half)
  | lh (rt rs : Reg) (imm : Half)
  | lwl (rt rs : Reg) (imm : Half)
  | lw (rt rs : Reg) (imm : Half)
  | lbu (rt rs : Reg) (imm : Half)
  | lhu (rt rs : Reg) (imm : Half)
  | lwr (rt rs : Reg) (imm : Half)
  | sb (rt rs : Reg) (imm : Half)
  | sh (rt rs : Reg) (imm : Half)
  | swl (rt rs : Reg) (imm : Half)
  | sw (rt rs : Reg) (imm : Half)
  | swr (rt rs : Reg) (imm : Half)
  -- arithmetic and logic, R121 to R138
  | add (rd rs rt : Reg)
  | addu (rd rs rt : Reg)
  | sub (rd rs rt : Reg)
  | subu (rd rs rt : Reg)
  | addi (rt rs : Reg) (imm : Half)
  | addiu (rt rs : Reg) (imm : Half)
  | and (rd rs rt : Reg)
  | andi (rt rs : Reg) (imm : Half)
  | or (rd rs rt : Reg)
  | ori (rt rs : Reg) (imm : Half)
  | xor (rd rs rt : Reg)
  | xori (rt rs : Reg) (imm : Half)
  | nor (rd rs rt : Reg)
  | slt (rd rs rt : Reg)
  | sltu (rd rs rt : Reg)
  | slti (rt rs : Reg) (imm : Half)
  | sltiu (rt rs : Reg) (imm : Half)
  | lui (rt : Reg) (imm : Half)
  -- shifts, R151 to R156
  | sll (rd rt : Reg) (shamt : BitVec 5)
  | srl (rd rt : Reg) (shamt : BitVec 5)
  | sra (rd rt : Reg) (shamt : BitVec 5)
  | sllv (rd rt rs : Reg)
  | srlv (rd rt rs : Reg)
  | srav (rd rt rs : Reg)
  -- multiplication, division, HI and LO, R161 to R168
  | mult (rs rt : Reg)
  | multu (rs rt : Reg)
  | div (rs rt : Reg)
  | divu (rs rt : Reg)
  | mfhi (rd : Reg)
  | mthi (rs : Reg)
  | mflo (rd : Reg)
  | mtlo (rs : Reg)
  -- branches and jumps, R181 to R186
  | beq (rs rt : Reg) (imm : Half)
  | bne (rs rt : Reg) (imm : Half)
  | j (target : BitVec 26)
  | jr (rs : Reg)
  | jal (target : BitVec 26)
  | jalr (rs : Reg)
deriving DecidableEq, Repr

/-- An instruction word cut at the field borders of format R (R71). Format I's imm is rd, shamt, funct together
(R72); format J's target is all but op (R73). -/
structure Fields where
  op : BitVec 6
  rs : BitVec 5
  rt : BitVec 5
  rd : BitVec 5
  shamt : BitVec 5
  funct : BitVec 6
deriving DecidableEq, Repr

end Sys2Proof
end

