-- ==== Sys2Proof/WellFormed.lean ====
section
/-! DEFINITION. Which instruction words are well formed, written from the lists of R78 and R79 and the unused fields
of R81, apart from the decoder's match and mask table (R88). The operands of `Instr` have the exact width of their
fields, so the checks are about words, not about terms of `Instr`. -/

namespace Sys2Proof

/-- The primary opcodes of R78. -/
def listedOps : List (BitVec 6) :=
  [0x00, 0x02, 0x03, 0x04, 0x05, 0x08, 0x09, 0x0A, 0x0B, 0x0C, 0x0D, 0x0E, 0x0F]
    ++ [0x20, 0x21, 0x22, 0x23, 0x24, 0x25, 0x26, 0x28, 0x29, 0x2A, 0x2B, 0x2E]

/-- The function codes of R79. -/
def listedFuncts : List (BitVec 6) :=
  [0x00, 0x02, 0x03, 0x04, 0x06, 0x07, 0x08, 0x09, 0x10, 0x11, 0x12, 0x13, 0x18, 0x19, 0x1A, 0x1B]
    ++ [0x20, 0x21, 0x22, 0x23, 0x24, 0x25, 0x26, 0x27, 0x2A, 0x2B]

/-- R78: the primary opcode is a listed one. -/
def Fields.opListed (f : Fields) : Bool := listedOps.contains f.op

/-- R79: under op 0 the function code is a listed one. -/
def Fields.functListed (f : Fields) : Bool := f.op != 0 || listedFuncts.contains f.funct

/-- R81: shamt is 0 in format R, but for sll, srl, sra. -/
def Fields.shamtOk (f : Fields) : Bool :=
  f.op != 0 || [0x00#6, 0x02#6, 0x03#6].contains f.funct || f.shamt == 0

/-- R81: rs is 0 in sll, srl, sra, mfhi, mflo and lui. -/
def Fields.rsOk (f : Fields) : Bool :=
  !(f.op == 0 && [0x00#6, 0x02#6, 0x03#6, 0x10#6, 0x12#6].contains f.funct || f.op == 0x0F) || f.rs == 0

/-- R81: rt is 0 in mfhi, mflo, mthi, mtlo, jr, jalr. -/
def Fields.rtOk (f : Fields) : Bool :=
  !(f.op == 0 && [0x10#6, 0x12#6, 0x11#6, 0x13#6, 0x08#6, 0x09#6].contains f.funct) || f.rt == 0

/-- R81: rd is 0 in mult, multu, div, divu, mthi, mtlo, jr. -/
def Fields.rdOk (f : Fields) : Bool :=
  !(f.op == 0 && [0x18#6, 0x19#6, 0x1A#6, 0x1B#6, 0x11#6, 0x13#6, 0x08#6].contains f.funct) || f.rd == 0

/-- R81: jalr links into register 31. -/
def Fields.linkOk (f : Fields) : Bool := !(f.op == 0 && f.funct == 0x09) || f.rd == 31

/-- All checks of R78, R79 and R81 together. -/
def Fields.wellFormed (f : Fields) : Bool :=
  f.opListed && f.functListed && f.shamtOk && f.rsOk && f.rtOk && f.rdOk && f.linkOk

/-- RESET_PC must be a multiple of 4 (R35, D5). -/
abbrev wordAligned (a : Word) : Prop := a.toNat % 4 = 0

end Sys2Proof
end

