-- ==== Sys2Proof/Decode.lean ====
section
/-! DEFINITION. The decoder of R87, over the match and mask rows of R88; the encoder, over the opcode and function
codes of R78 and R79 and the formats of R71 to R73; and the host's view of the decoder. -/

namespace Sys2Proof

open Sys2Proof.Machine (joinWord wordBytes)

/-- Field rs, bits 25:21 (R71). -/
def rsOf (w : Word) : Reg := (w.extractLsb' 21 5).toFin

/-- Field rt, bits 20:16 (R71). -/
def rtOf (w : Word) : Reg := (w.extractLsb' 16 5).toFin

/-- Field rd, bits 15:11 (R71). -/
def rdOf (w : Word) : Reg := (w.extractLsb' 11 5).toFin

/-- Field shamt, bits 10:6 (R71). -/
def shamtOf (w : Word) : BitVec 5 := w.extractLsb' 6 5

/-- Field imm, bits 15:0 (R72). -/
def immOf (w : Word) : Half := w.extractLsb' 0 16

/-- Field target, bits 25:0 (R73). -/
def targetOf (w : Word) : BitVec 26 := w.extractLsb' 0 26

/-- All fields of a word, as R71 cuts it. -/
def fieldsOf (w : Word) : Fields where
  op := w.extractLsb' 26 6
  rs := w.extractLsb' 21 5
  rt := w.extractLsb' 16 5
  rd := w.extractLsb' 11 5
  shamt := w.extractLsb' 6 5
  funct := w.extractLsb' 0 6

/-- One row of R88: a word w is this instruction iff `w &&& mask = pattern`. -/
structure Row where
  mnemonic : String
  pattern : Word
  mask : Word
  build : Word → Instr

/-- The test of R88. -/
def rowMatches (r : Row) (w : Word) : Bool := w &&& r.mask == r.pattern

/-- R88, the rows of R101 to R112. -/
def loadStoreRows : List Row :=
  [⟨"lb", 0x80000000, 0xFC000000, fun w => .lb (rtOf w) (rsOf w) (immOf w)⟩,
   ⟨"lh", 0x84000000, 0xFC000000, fun w => .lh (rtOf w) (rsOf w) (immOf w)⟩,
   ⟨"lwl", 0x88000000, 0xFC000000, fun w => .lwl (rtOf w) (rsOf w) (immOf w)⟩,
   ⟨"lw", 0x8C000000, 0xFC000000, fun w => .lw (rtOf w) (rsOf w) (immOf w)⟩,
   ⟨"lbu", 0x90000000, 0xFC000000, fun w => .lbu (rtOf w) (rsOf w) (immOf w)⟩,
   ⟨"lhu", 0x94000000, 0xFC000000, fun w => .lhu (rtOf w) (rsOf w) (immOf w)⟩,
   ⟨"lwr", 0x98000000, 0xFC000000, fun w => .lwr (rtOf w) (rsOf w) (immOf w)⟩,
   ⟨"sb", 0xA0000000, 0xFC000000, fun w => .sb (rtOf w) (rsOf w) (immOf w)⟩,
   ⟨"sh", 0xA4000000, 0xFC000000, fun w => .sh (rtOf w) (rsOf w) (immOf w)⟩,
   ⟨"swl", 0xA8000000, 0xFC000000, fun w => .swl (rtOf w) (rsOf w) (immOf w)⟩,
   ⟨"sw", 0xAC000000, 0xFC000000, fun w => .sw (rtOf w) (rsOf w) (immOf w)⟩,
   ⟨"swr", 0xB8000000, 0xFC000000, fun w => .swr (rtOf w) (rsOf w) (immOf w)⟩]

/-- R88, the rows of R121 to R138. -/
def aluRows : List Row :=
  [⟨"add", 0x00000020, 0xFC0007FF, fun w => .add (rdOf w) (rsOf w) (rtOf w)⟩,
   ⟨"addu", 0x00000021, 0xFC0007FF, fun w => .addu (rdOf w) (rsOf w) (rtOf w)⟩,
   ⟨"sub", 0x00000022, 0xFC0007FF, fun w => .sub (rdOf w) (rsOf w) (rtOf w)⟩,
   ⟨"subu", 0x00000023, 0xFC0007FF, fun w => .subu (rdOf w) (rsOf w) (rtOf w)⟩,
   ⟨"addi", 0x20000000, 0xFC000000, fun w => .addi (rtOf w) (rsOf w) (immOf w)⟩,
   ⟨"addiu", 0x24000000, 0xFC000000, fun w => .addiu (rtOf w) (rsOf w) (immOf w)⟩,
   ⟨"and", 0x00000024, 0xFC0007FF, fun w => .and (rdOf w) (rsOf w) (rtOf w)⟩,
   ⟨"andi", 0x30000000, 0xFC000000, fun w => .andi (rtOf w) (rsOf w) (immOf w)⟩,
   ⟨"or", 0x00000025, 0xFC0007FF, fun w => .or (rdOf w) (rsOf w) (rtOf w)⟩,
   ⟨"ori", 0x34000000, 0xFC000000, fun w => .ori (rtOf w) (rsOf w) (immOf w)⟩,
   ⟨"xor", 0x00000026, 0xFC0007FF, fun w => .xor (rdOf w) (rsOf w) (rtOf w)⟩,
   ⟨"xori", 0x38000000, 0xFC000000, fun w => .xori (rtOf w) (rsOf w) (immOf w)⟩,
   ⟨"nor", 0x00000027, 0xFC0007FF, fun w => .nor (rdOf w) (rsOf w) (rtOf w)⟩,
   ⟨"slt", 0x0000002A, 0xFC0007FF, fun w => .slt (rdOf w) (rsOf w) (rtOf w)⟩,
   ⟨"sltu", 0x0000002B, 0xFC0007FF, fun w => .sltu (rdOf w) (rsOf w) (rtOf w)⟩,
   ⟨"slti", 0x28000000, 0xFC000000, fun w => .slti (rtOf w) (rsOf w) (immOf w)⟩,
   ⟨"sltiu", 0x2C000000, 0xFC000000, fun w => .sltiu (rtOf w) (rsOf w) (immOf w)⟩,
   ⟨"lui", 0x3C000000, 0xFFE00000, fun w => .lui (rtOf w) (immOf w)⟩]

/-- R88, the rows of R151 to R156. -/
def shiftRows : List Row :=
  [⟨"sll", 0x00000000, 0xFFE0003F, fun w => .sll (rdOf w) (rtOf w) (shamtOf w)⟩,
   ⟨"srl", 0x00000002, 0xFFE0003F, fun w => .srl (rdOf w) (rtOf w) (shamtOf w)⟩,
   ⟨"sra", 0x00000003, 0xFFE0003F, fun w => .sra (rdOf w) (rtOf w) (shamtOf w)⟩,
   ⟨"sllv", 0x00000004, 0xFC0007FF, fun w => .sllv (rdOf w) (rtOf w) (rsOf w)⟩,
   ⟨"srlv", 0x00000006, 0xFC0007FF, fun w => .srlv (rdOf w) (rtOf w) (rsOf w)⟩,
   ⟨"srav", 0x00000007, 0xFC0007FF, fun w => .srav (rdOf w) (rtOf w) (rsOf w)⟩]

/-- R88, the rows of R161 to R168. -/
def mulDivRows : List Row :=
  [⟨"mult", 0x00000018, 0xFC00FFFF, fun w => .mult (rsOf w) (rtOf w)⟩,
   ⟨"multu", 0x00000019, 0xFC00FFFF, fun w => .multu (rsOf w) (rtOf w)⟩,
   ⟨"div", 0x0000001A, 0xFC00FFFF, fun w => .div (rsOf w) (rtOf w)⟩,
   ⟨"divu", 0x0000001B, 0xFC00FFFF, fun w => .divu (rsOf w) (rtOf w)⟩,
   ⟨"mfhi", 0x00000010, 0xFFFF07FF, fun w => .mfhi (rdOf w)⟩,
   ⟨"mthi", 0x00000011, 0xFC1FFFFF, fun w => .mthi (rsOf w)⟩,
   ⟨"mflo", 0x00000012, 0xFFFF07FF, fun w => .mflo (rdOf w)⟩,
   ⟨"mtlo", 0x00000013, 0xFC1FFFFF, fun w => .mtlo (rsOf w)⟩]

/-- R88, the rows of R181 to R186. -/
def jumpRows : List Row :=
  [⟨"beq", 0x10000000, 0xFC000000, fun w => .beq (rsOf w) (rtOf w) (immOf w)⟩,
   ⟨"bne", 0x14000000, 0xFC000000, fun w => .bne (rsOf w) (rtOf w) (immOf w)⟩,
   ⟨"j", 0x08000000, 0xFC000000, fun w => .j (targetOf w)⟩,
   ⟨"jr", 0x00000008, 0xFC1FFFFF, fun w => .jr (rsOf w)⟩,
   ⟨"jal", 0x0C000000, 0xFC000000, fun w => .jal (targetOf w)⟩,
   ⟨"jalr", 0x0000F809, 0xFC1FFFFF, fun w => .jalr (rsOf w)⟩]

/-- R88, all 50 rows. -/
def rows : List Row := loadStoreRows ++ aluRows ++ shiftRows ++ mulDivRows ++ jumpRows

/-- Why bytes are no instruction. -/
inductive DecodeError where
  /-- The word matches no row of R88 (R80). -/
  | reserved (w : Word)
  /-- Fewer than the four bytes of an instruction (R70). -/
  | truncated
deriving DecidableEq, Repr

/-- The decoder, total on every word (R87). -/
def decode (w : Word) : Except DecodeError Instr :=
  match rows.find? (rowMatches · w) with
  | some r => .ok (r.build w)
  | none => .error (.reserved w)

/-- The decoder on bytes at rising addresses: an instruction is four bytes (R70), assembled in the byte order of the
fetch (R43). Answers the instruction and the bytes after it. -/
def decodeBytes (e : Endian) : List Byte → Except DecodeError (Instr × List Byte)
  | b0 :: b1 :: b2 :: b3 :: rest => (decode (joinWord e b0 b1 b2 b3)).map (·, rest)
  | _ => .error .truncated

/-- Format R under op 0 (R71). -/
def formR (rs rt rd : Reg) (shamt : BitVec 5) (funct : BitVec 6) : Word :=
  0#6 ++ BitVec.ofFin (w := 5) rs ++ BitVec.ofFin (w := 5) rt ++ BitVec.ofFin (w := 5) rd ++ shamt ++ funct

/-- Format I (R72). -/
def formI (op : BitVec 6) (rs rt : Reg) (imm : Half) : Word :=
  op ++ BitVec.ofFin (w := 5) rs ++ BitVec.ofFin (w := 5) rt ++ imm

/-- Format J (R73). -/
def formJ (op : BitVec 6) (target : BitVec 26) : Word := op ++ target

/-- The word of an instruction: its opcode of R78 or function code of R79, its operands in their fields, every unused
field 0, and 31 in jalr's rd (R81). -/
def encode : Instr → Word
  | .lb rt rs imm => formI 0x20 rs rt imm
  | .lh rt rs imm => formI 0x21 rs rt imm
  | .lwl rt rs imm => formI 0x22 rs rt imm
  | .lw rt rs imm => formI 0x23 rs rt imm
  | .lbu rt rs imm => formI 0x24 rs rt imm
  | .lhu rt rs imm => formI 0x25 rs rt imm
  | .lwr rt rs imm => formI 0x26 rs rt imm
  | .sb rt rs imm => formI 0x28 rs rt imm
  | .sh rt rs imm => formI 0x29 rs rt imm
  | .swl rt rs imm => formI 0x2A rs rt imm
  | .sw rt rs imm => formI 0x2B rs rt imm
  | .swr rt rs imm => formI 0x2E rs rt imm
  | .add rd rs rt => formR rs rt rd 0 0x20
  | .addu rd rs rt => formR rs rt rd 0 0x21
  | .sub rd rs rt => formR rs rt rd 0 0x22
  | .subu rd rs rt => formR rs rt rd 0 0x23
  | .addi rt rs imm => formI 0x08 rs rt imm
  | .addiu rt rs imm => formI 0x09 rs rt imm
  | .and rd rs rt => formR rs rt rd 0 0x24
  | .andi rt rs imm => formI 0x0C rs rt imm
  | .or rd rs rt => formR rs rt rd 0 0x25
  | .ori rt rs imm => formI 0x0D rs rt imm
  | .xor rd rs rt => formR rs rt rd 0 0x26
  | .xori rt rs imm => formI 0x0E rs rt imm
  | .nor rd rs rt => formR rs rt rd 0 0x27
  | .slt rd rs rt => formR rs rt rd 0 0x2A
  | .sltu rd rs rt => formR rs rt rd 0 0x2B
  | .slti rt rs imm => formI 0x0A rs rt imm
  | .sltiu rt rs imm => formI 0x0B rs rt imm
  | .lui rt imm => formI 0x0F 0 rt imm
  | .sll rd rt shamt => formR 0 rt rd shamt 0x00
  | .srl rd rt shamt => formR 0 rt rd shamt 0x02
  | .sra rd rt shamt => formR 0 rt rd shamt 0x03
  | .sllv rd rt rs => formR rs rt rd 0 0x04
  | .srlv rd rt rs => formR rs rt rd 0 0x06
  | .srav rd rt rs => formR rs rt rd 0 0x07
  | .mult rs rt => formR rs rt 0 0 0x18
  | .multu rs rt => formR rs rt 0 0 0x19
  | .div rs rt => formR rs rt 0 0 0x1A
  | .divu rs rt => formR rs rt 0 0 0x1B
  | .mfhi rd => formR 0 0 rd 0 0x10
  | .mthi rs => formR rs 0 0 0 0x11
  | .mflo rd => formR 0 0 rd 0 0x12
  | .mtlo rs => formR rs 0 0 0 0x13
  | .beq rs rt imm => formI 0x04 rs rt imm
  | .bne rs rt imm => formI 0x05 rs rt imm
  | .j target => formJ 0x02 target
  | .jr rs => formR rs 0 0 0 0x08
  | .jal target => formJ 0x03 target
  | .jalr rs => formR rs 0 31 0 0x09

/-- The host's view of the decoder: the instruction read from the `nbits` low bits of `w`, laid out as four bytes in
memory and given to the decoder. The answer does not depend on the byte order used for the layout (R87). -/
def decodeTableWord (nbits w : Nat) : Option Instr :=
  match decodeBytes .big (wordBytes .big (BitVec.ofNat 32 (w % 2 ^ nbits))) with
  | .ok (i, _) => some i
  | .error _ => none

end Sys2Proof
end

