-- ==== Sys2Proof/Machine/Jump.lean ====
section
/-! DEFINITION. Branches and jumps (R180 to R190), without a delay slot (D6). -/

namespace Sys2Proof.Machine

/-- Register 31, `$ra` (R22, R23). -/
def ra : Reg := 31

/-- beq (R181). -/
def execBeq (rs rt : Reg) (imm : Half) (s : State) : Out :=
  .next (s.goto (if s.x rs = s.x rt then branchTarget s.npc imm else s.npc))

/-- bne (R182). -/
def execBne (rs rt : Reg) (imm : Half) (s : State) : Out :=
  .next (s.goto (if s.x rs ≠ s.x rt then branchTarget s.npc imm else s.npc))

/-- j (R183). -/
def execJ (target : BitVec 26) (s : State) : Out := .next (s.goto (jumpTarget s.npc target))

/-- jr: all 32 bits, with no masking (R184). -/
def execJr (rs : Reg) (s : State) : Out := .next (s.goto (s.x rs))

/-- jal: the link is npc (R185). -/
def execJal (target : BitVec 26) (s : State) : Out := .next ((s.setX ra s.npc).goto (jumpTarget s.npc target))

/-- jalr: rs = 31 faults (R186, D20); otherwise the link is npc. -/
def execJalr (rs : Reg) (s : State) : Out :=
  if rs = 31 then .fault (.unpredictableOperands (encode (.jalr rs)))
  else .next ((s.setX ra s.npc).goto (s.x rs))

end Sys2Proof.Machine
end

