-- ==== Sys2Proof/Machine/LoadStore.lean ====
section
/-! DEFINITION. Loads and stores (R100 to R113). -/

namespace Sys2Proof.Machine

/-- lb (R101). -/
def execLb (rt rs : Reg) (imm : Half) (s : State) : Out :=
  let a := s.effAddr rs imm
  s.loadResult a 1 (span a 1) rt ((s.byte a).signExtend 32)

/-- lh (R102). -/
def execLh (rt rs : Reg) (imm : Half) (s : State) : Out :=
  let a := s.effAddr rs imm
  s.loadResult a 2 (span a 2) rt ((s.half a).signExtend 32)

/-- lwl (R103). -/
def execLwl (rt rs : Reg) (imm : Half) (s : State) : Out :=
  let a := s.effAddr rs imm
  let lanes := leftLanes s.params.endian a
  s.loadResult a 1 (lanes.map Prod.fst) rt (s.mergeLanes lanes (s.x rt))

/-- lw (R104). -/
def execLw (rt rs : Reg) (imm : Half) (s : State) : Out :=
  let a := s.effAddr rs imm
  s.loadResult a 4 (span a 4) rt (s.word a)

/-- lbu (R105). -/
def execLbu (rt rs : Reg) (imm : Half) (s : State) : Out :=
  let a := s.effAddr rs imm
  s.loadResult a 1 (span a 1) rt ((s.byte a).setWidth 32)

/-- lhu (R106). -/
def execLhu (rt rs : Reg) (imm : Half) (s : State) : Out :=
  let a := s.effAddr rs imm
  s.loadResult a 2 (span a 2) rt ((s.half a).setWidth 32)

/-- lwr (R107). -/
def execLwr (rt rs : Reg) (imm : Half) (s : State) : Out :=
  let a := s.effAddr rs imm
  let lanes := rightLanes s.params.endian a
  s.loadResult a 1 (lanes.map Prod.fst) rt (s.mergeLanes lanes (s.x rt))

/-- sb (R108). -/
def execSb (rt rs : Reg) (imm : Half) (s : State) : Out :=
  let a := s.effAddr rs imm
  s.storeBytes a 1 (byteWrites a (s.x rt))

/-- sh (R109). -/
def execSh (rt rs : Reg) (imm : Half) (s : State) : Out :=
  let a := s.effAddr rs imm
  s.storeBytes a 2 (halfWrites s.params.endian a (s.x rt))

/-- swl (R110). -/
def execSwl (rt rs : Reg) (imm : Half) (s : State) : Out :=
  let a := s.effAddr rs imm
  s.storeBytes a 1 (laneBytes (leftLanes s.params.endian a) (s.x rt))

/-- sw (R111). -/
def execSw (rt rs : Reg) (imm : Half) (s : State) : Out :=
  let a := s.effAddr rs imm
  s.storeBytes a 4 (wordWrites s.params.endian a (s.x rt))

/-- swr (R112). -/
def execSwr (rt rs : Reg) (imm : Half) (s : State) : Out :=
  let a := s.effAddr rs imm
  s.storeBytes a 1 (laneBytes (rightLanes s.params.endian a) (s.x rt))

end Sys2Proof.Machine
end

