-- ==== Sys2Proof/Machine/MulDiv.lean ====
section
/-! DEFINITION. Multiplication, division and the moves of HI and LO (R160 to R170). -/

namespace Sys2Proof.Machine

/-- A 64-bit product into the pair HI || LO (R161, R162). -/
def State.writeProduct (s : State) (p : DWord) : Out := s.writeHiLo (p.extractLsb' 32 32) (p.extractLsb' 0 32)

/-- mult: the exact signed product (R161). -/
def execMult (rs rt : Reg) (s : State) : Out :=
  s.writeProduct (BitVec.ofInt 64 ((s.x rs).toInt * (s.x rt).toInt))

/-- multu: the exact unsigned product (R162). -/
def execMultu (rs rt : Reg) (s : State) : Out :=
  s.writeProduct (BitVec.ofNat 64 ((s.x rs).toNat * (s.x rt).toNat))

/-- div: truncation toward zero, the remainder with the sign of the dividend; a zero divisor and -2^31 / -1 leave HI and
LO free values (R163). -/
def execDiv (rs rt : Reg) (s : State) : Out :=
  let a := (s.x rs).toInt
  let b := (s.x rt).toInt
  if b = 0 ∨ (a = -2 ^ 31 ∧ b = -1) then s.writeHiLoAny
  else s.writeQuotient (BitVec.ofInt 32 (a.tdiv b)) (BitVec.ofInt 32 (a - a.tdiv b * b))

/-- divu: a zero divisor leaves HI and LO free values (R164). -/
def execDivu (rs rt : Reg) (s : State) : Out :=
  let a := (s.x rs).toNat
  let b := (s.x rt).toNat
  if b = 0 then s.writeHiLoAny
  else s.writeQuotient (BitVec.ofNat 32 (a / b)) (BitVec.ofNat 32 (a - a / b * b))

/-- mfhi: a read of HI, which starts its guard (R165). -/
def execMfhi (rd : Reg) (s : State) : Out := .next (s.setX rd s.hi).advance.startHiGuard

/-- mthi (R166). -/
def execMthi (rs : Reg) (s : State) : Out := s.writeHi (s.x rs)

/-- mflo: a read of LO, which starts its guard (R167). -/
def execMflo (rd : Reg) (s : State) : Out := .next (s.setX rd s.lo).advance.startLoGuard

/-- mtlo (R168, C3). -/
def execMtlo (rs : Reg) (s : State) : Out := s.writeLo (s.x rs)

end Sys2Proof.Machine
end

