-- ==== Sys2Proof/Machine/Shift.lean ====
section
/-! DEFINITION. Shifts (R150 to R157). -/

namespace Sys2Proof.Machine

/-- sll (R151). -/
def execSll (rd rt : Reg) (shamt : BitVec 5) (s : State) : Out := s.result rd (shl (s.x rt) shamt.toNat)

/-- srl (R152). -/
def execSrl (rd rt : Reg) (shamt : BitVec 5) (s : State) : Out := s.result rd (shrl (s.x rt) shamt.toNat)

/-- sra (R153). -/
def execSra (rd rt : Reg) (shamt : BitVec 5) (s : State) : Out := s.result rd (shra (s.x rt) shamt.toNat)

/-- sllv (R154). -/
def execSllv (rd rt rs : Reg) (s : State) : Out := s.result rd (shl (s.x rt) (shiftAmount (s.x rs)))

/-- srlv (R155). -/
def execSrlv (rd rt rs : Reg) (s : State) : Out := s.result rd (shrl (s.x rt) (shiftAmount (s.x rs)))

/-- srav (R156). -/
def execSrav (rd rt rs : Reg) (s : State) : Out := s.result rd (shra (s.x rt) (shiftAmount (s.x rs)))

end Sys2Proof.Machine
end

