-- ==== Sys2Proof/Machine/Dispatch.lean ====
section
/-! DEFINITION. The meaning of each instruction, one arm a constructor (R3). -/

namespace Sys2Proof.Machine

def exec (i : Instr) (s : State) : Host.Outcome State Fault Refusal :=
  match i with
  | .lb rt rs imm => Sys2Proof.Machine.execLb rt rs imm s
  | .lh rt rs imm => Sys2Proof.Machine.execLh rt rs imm s
  | .lwl rt rs imm => Sys2Proof.Machine.execLwl rt rs imm s
  | .lw rt rs imm => Sys2Proof.Machine.execLw rt rs imm s
  | .lbu rt rs imm => Sys2Proof.Machine.execLbu rt rs imm s
  | .lhu rt rs imm => Sys2Proof.Machine.execLhu rt rs imm s
  | .lwr rt rs imm => Sys2Proof.Machine.execLwr rt rs imm s
  | .sb rt rs imm => Sys2Proof.Machine.execSb rt rs imm s
  | .sh rt rs imm => Sys2Proof.Machine.execSh rt rs imm s
  | .swl rt rs imm => Sys2Proof.Machine.execSwl rt rs imm s
  | .sw rt rs imm => Sys2Proof.Machine.execSw rt rs imm s
  | .swr rt rs imm => Sys2Proof.Machine.execSwr rt rs imm s
  | .add rd rs rt => Sys2Proof.Machine.execAdd rd rs rt s
  | .addu rd rs rt => Sys2Proof.Machine.execAddu rd rs rt s
  | .sub rd rs rt => Sys2Proof.Machine.execSub rd rs rt s
  | .subu rd rs rt => Sys2Proof.Machine.execSubu rd rs rt s
  | .addi rt rs imm => Sys2Proof.Machine.execAddi rt rs imm s
  | .addiu rt rs imm => Sys2Proof.Machine.execAddiu rt rs imm s
  | .and rd rs rt => Sys2Proof.Machine.execAnd rd rs rt s
  | .andi rt rs imm => Sys2Proof.Machine.execAndi rt rs imm s
  | .or rd rs rt => Sys2Proof.Machine.execOr rd rs rt s
  | .ori rt rs imm => Sys2Proof.Machine.execOri rt rs imm s
  | .xor rd rs rt => Sys2Proof.Machine.execXor rd rs rt s
  | .xori rt rs imm => Sys2Proof.Machine.execXori rt rs imm s
  | .nor rd rs rt => Sys2Proof.Machine.execNor rd rs rt s
  | .slt rd rs rt => Sys2Proof.Machine.execSlt rd rs rt s
  | .sltu rd rs rt => Sys2Proof.Machine.execSltu rd rs rt s
  | .slti rt rs imm => Sys2Proof.Machine.execSlti rt rs imm s
  | .sltiu rt rs imm => Sys2Proof.Machine.execSltiu rt rs imm s
  | .lui rt imm => Sys2Proof.Machine.execLui rt imm s
  | .sll rd rt shamt => Sys2Proof.Machine.execSll rd rt shamt s
  | .srl rd rt shamt => Sys2Proof.Machine.execSrl rd rt shamt s
  | .sra rd rt shamt => Sys2Proof.Machine.execSra rd rt shamt s
  | .sllv rd rt rs => Sys2Proof.Machine.execSllv rd rt rs s
  | .srlv rd rt rs => Sys2Proof.Machine.execSrlv rd rt rs s
  | .srav rd rt rs => Sys2Proof.Machine.execSrav rd rt rs s
  | .mult rs rt => Sys2Proof.Machine.execMult rs rt s
  | .multu rs rt => Sys2Proof.Machine.execMultu rs rt s
  | .div rs rt => Sys2Proof.Machine.execDiv rs rt s
  | .divu rs rt => Sys2Proof.Machine.execDivu rs rt s
  | .mfhi rd => Sys2Proof.Machine.execMfhi rd s
  | .mthi rs => Sys2Proof.Machine.execMthi rs s
  | .mflo rd => Sys2Proof.Machine.execMflo rd s
  | .mtlo rs => Sys2Proof.Machine.execMtlo rs s
  | .beq rs rt imm => Sys2Proof.Machine.execBeq rs rt imm s
  | .bne rs rt imm => Sys2Proof.Machine.execBne rs rt imm s
  | .j target => Sys2Proof.Machine.execJ target s
  | .jr rs => Sys2Proof.Machine.execJr rs s
  | .jal target => Sys2Proof.Machine.execJal target s
  | .jalr rs => Sys2Proof.Machine.execJalr rs s

end Sys2Proof.Machine
end

