-- ==== Sys2Proof/Machine/Fetch.lean ====
section
/-! DEFINITION. What a step does before the instruction's own rule (R10): the end of the run, fetch, decode; and the
host's placing of one instruction at the pc. -/

namespace Sys2Proof.Machine

/-- The run has ended successfully (R214): the pc is HALT_PC and there is no fault. -/
def State.ended (s : State) : Bool := s.fault.isNone && s.pc == s.params.haltPc

/-- Fetch and decode at the pc, with the faults of the step itself in their order (R80, R87, R204). -/
def State.fetchInstr (s : State) : Except Fault Instr :=
  match s.fetchWord with
  | .error f => .error f
  | .ok w =>
    match decode w with
    | .ok i => .ok i
    | .error _ => .error (.reservedInstruction w)

/-- The host's load of one word at the pc: its four bytes in the byte order, and no longer a word that a store of the
run has written (R35, R55, R215; log entry 13). -/
def State.placeWord (s : State) (v : Word) : State :=
  { s with
    mem := ((span s.pc 4).zip (wordBytes s.params.endian v)).foldl (fun m w => Memory.write m w.1.toNat w.2) s.mem
    dirty := s.dirty.filter (· != (wordBase s.pc).toNat) }

end Sys2Proof.Machine
end

