-- ==== Sys2Proof/Machine/Step.lean ====
section
/-! DEFINITION. One step of the machine (R10). -/

namespace Sys2Proof.Machine

/-- One step (R10). A faulted machine takes no step: it answers its fault again (R201). At HALT_PC the run has ended and
the state is final: the step answers the same state (R214; log entry 12). Otherwise fetch, decode, and the
instruction's rule, which ends by running the guards down and setting the pc. -/
def step (s : State) : Host.Outcome State Fault Refusal :=
  match s.fault with
  | some r => .fault r.reason
  | none =>
    if s.ended then .next s
    else
      match s.fetchInstr with
      | .error f => .fault f
      | .ok i => exec i s

/-- The state with the instruction of `nbits` bits `w` stored at the pc. -/
def State.withFetchWord (s : State) (nbits w : Nat) : State := s.placeWord (BitVec.ofNat 32 (w % 2 ^ nbits))

end Sys2Proof.Machine
end

