-- ==== Sys2Proof/Machine/DelaySlot.lean ====
section
/-! DEFINITION. R189's variant of the machine, with a branch delay slot, for a model that sets BRANCH_DELAY_SLOT = true.
It stands apart: `step`, `State` and `core` are the machine of R5's fixed value false (D6), and nothing of them uses this
file (log entry 16). -/

namespace Sys2Proof.Machine

/-- R189: the pc becomes the pair (pc, next). `inSlot` says that the instruction at pc follows a branch or jump. -/
structure DelayState where
  base : State
  next : Word
  inSlot : Bool
deriving DecidableEq, Repr

/-- After reset next = pc + 4 (R189). -/
def DelayState.ofReset (s : State) : DelayState where
  base := s
  next := s.npc
  inSlot := false

/-- The six instructions that have a delay slot. -/
def hasDelaySlot : Instr → Bool
  | .beq _ _ _ | .bne _ _ _ | .j _ | .jr _ | .jal _ | .jalr _ => true
  | _ => false

/-- A taken beq or bne, or a jump: what R189 calls the instructions with a computed target. -/
def takesTarget (i : Instr) (s : State) : Bool :=
  match i with
  | .beq rs rt _ => s.x rs == s.x rt
  | .bne rs rt _ => s.x rs != s.x rt
  | .j _ | .jr _ | .jal _ | .jalr _ => true
  | _ => false

/-- jal and jalr link pc + 8, the address after the delay slot (R189). -/
def delayLink (i : Instr) (pc : Word) (t : State) : State :=
  match i with
  | .jal _ | .jalr _ => t.setX ra (pc + 8)
  | _ => t

/-- R189's pairs: the effect of `i` is that of the machine without slots, its target is held back one instruction. -/
def delayAfter (d : DelayState) (i : Instr) (t : State) : DelayState where
  base := { delayLink i d.base.pc t with pc := d.next }
  next := if takesTarget i d.base then t.pc else d.next + 4
  inSlot := hasDelaySlot i

/-- One instruction of the variant: a branch or jump in a delay slot faults (R189; the fault's name and the slot of an
untaken branch are log entry 16). -/
def delayExec (i : Instr) (d : DelayState) : Host.Outcome DelayState Fault Refusal :=
  if d.inSlot && hasDelaySlot i then .fault (.unpredictableOperands (encode i))
  else
    match exec i d.base with
    | .next t => .next (delayAfter d i t)
    | .fault f => .fault f
    | .refused r => .refused r

/-- One step of the variant (R189, R10). -/
def delayStep (d : DelayState) : Host.Outcome DelayState Fault Refusal :=
  match d.base.fault with
  | some r => .fault r.reason
  | none =>
    if d.base.ended then .next d
    else
      match d.base.fetchInstr with
      | .error f => .fault f
      | .ok i => delayExec i d

end Sys2Proof.Machine
end

