-- ==== Sys2Proof/Safety.lean ====
section
/-! DEFINITION. The terms in which claims about the machine are stated: the invariant, what a run settles to, which
instruction may change what, and the effect shapes of R120, R113, R160 and R187. -/

namespace Sys2Proof.Machine

/-! ## Runs -/

/-- One move of the machine, fault included: the next state, or the same state with its fault recorded (R201). -/
def settle (s : State) : State :=
  match step s with
  | .next t => t
  | .fault f => s.enterFault f
  | .refused _ => s

/-- The state after `n` moves. -/
def settleN : Nat → State → State
  | 0, s => s
  | n + 1, s => settleN n (settle s)

/-- A run is successful when it reaches HALT_PC with no fault (R214). -/
def State.succeeds (s : State) : Prop := ∃ n, (settleN n s).ended = true

/-- A step at this state fetches and executes `i`: no fault, not ended, and the fetch and decode give `i` (R10). -/
def State.runs (s : State) (i : Instr) : Prop := s.fault = none ∧ s.pc ≠ s.params.haltPc ∧ s.fetchInstr = .ok i

/-! ## The invariant -/

/-- What holds of every state of a run (R31, R33): memory is in canonical form, the guards are 0, 1 or 2, `dirty` is a
rising list of word-aligned addresses of the address space. -/
def State.Inv (s : State) : Prop :=
  Memory.wf s.mem ∧ s.hiGuard ≤ 2 ∧ s.loGuard ≤ 2 ∧ s.dirty.Pairwise (· < ·) ∧ ∀ a ∈ s.dirty, a < 2 ^ 32 ∧ a % 4 = 0

/-! ## Which instruction may change what -/

/-- The general register an instruction writes: the one its destination field names, or 31 for jal and jalr (R23). -/
def destOf : Instr → Option Reg
  | .lb rt _ _ | .lh rt _ _ | .lwl rt _ _ | .lw rt _ _ | .lbu rt _ _ | .lhu rt _ _ | .lwr rt _ _ => some rt
  | .sb _ _ _ | .sh _ _ _ | .swl _ _ _ | .sw _ _ _ | .swr _ _ _ => none
  | .add rd _ _ | .addu rd _ _ | .sub rd _ _ | .subu rd _ _ | .and rd _ _ | .or rd _ _ | .xor rd _ _ => some rd
  | .nor rd _ _ | .slt rd _ _ | .sltu rd _ _ => some rd
  | .addi rt _ _ | .addiu rt _ _ | .andi rt _ _ | .ori rt _ _ | .xori rt _ _ | .slti rt _ _ | .sltiu rt _ _ => some rt
  | .lui rt _ => some rt
  | .sll rd _ _ | .srl rd _ _ | .sra rd _ _ | .sllv rd _ _ | .srlv rd _ _ | .srav rd _ _ => some rd
  | .mult _ _ | .multu _ _ | .div _ _ | .divu _ _ | .mthi _ | .mtlo _ => none
  | .mfhi rd | .mflo rd => some rd
  | .beq _ _ _ | .bne _ _ _ | .j _ | .jr _ => none
  | .jal _ | .jalr _ => some ra

/-- The instructions that write HI (R26). -/
def writesHi : Instr → Bool
  | .mult _ _ | .multu _ _ | .div _ _ | .divu _ _ | .mthi _ => true
  | _ => false

/-- The instructions that write LO (R26). -/
def writesLo : Instr → Bool
  | .mult _ _ | .multu _ _ | .div _ _ | .divu _ _ | .mtlo _ => true
  | _ => false

/-- The six instructions of R3's last family, which write the pc (R27). -/
def isTransfer : Instr → Bool
  | .beq _ _ _ | .bne _ _ _ | .j _ | .jr _ | .jal _ | .jalr _ => true
  | _ => false

/-- The bytes an instruction stores, each with its address; none for an instruction that is no store (R108 to R112). -/
def storesOf (i : Instr) (s : State) : List (Word × Byte) :=
  match i with
  | .sb rt rs imm => byteWrites (s.effAddr rs imm) (s.x rt)
  | .sh rt rs imm => halfWrites s.params.endian (s.effAddr rs imm) (s.x rt)
  | .swl rt rs imm => laneBytes (leftLanes s.params.endian (s.effAddr rs imm)) (s.x rt)
  | .sw rt rs imm => wordWrites s.params.endian (s.effAddr rs imm) (s.x rt)
  | .swr rt rs imm => laneBytes (rightLanes s.params.endian (s.effAddr rs imm)) (s.x rt)
  | _ => []

/-! ## What bytes at rising addresses are worth -/

/-- The number that two bytes at rising addresses stand for (R42). -/
def halfValue (e : Endian) (b0 b1 : Byte) : Nat :=
  match e with
  | .big => 2 ^ 8 * b0.toNat + b1.toNat
  | .little => 2 ^ 8 * b1.toNat + b0.toNat

/-- The number that four bytes at rising addresses stand for (R42). -/
def wordValue (e : Endian) (b0 b1 b2 b3 : Byte) : Nat :=
  match e with
  | .big => 2 ^ 24 * b0.toNat + 2 ^ 16 * b1.toNat + 2 ^ 8 * b2.toNat + b3.toNat
  | .little => 2 ^ 24 * b3.toNat + 2 ^ 16 * b2.toNat + 2 ^ 8 * b1.toNat + b0.toNat

/-- The byte of the last pair of `ws` with the address `a`, or `old` if there is none (R58). -/
def lastWritten (ws : List (Word × Byte)) (a : Word) (old : Byte) : Byte :=
  ((ws.filter (fun w => w.1 == a)).getLast?.map Prod.snd).getD old

/-! ## The shapes of an effect -/

/-- Register `r` receives `v`, unless it is register 0, and every other register is unchanged (R21). -/
def RegWrite (s t : State) (r : Reg) (v : Word) : Prop :=
  (r ≠ 0 → t.x r = v) ∧ ∀ q, (q ≠ r ∨ q = 0) → t.x q = s.x q

/-- No general register changes. -/
def RegsSame (s t : State) : Prop := ∀ q, t.x q = s.x q

/-- HI and LO are unchanged. -/
def HiLoSame (s t : State) : Prop := t.hi = s.hi ∧ t.lo = s.lo

/-- No byte of memory changes and no word becomes dirty. -/
def MemSame (s t : State) : Prop := (∀ a, t.byte a = s.byte a) ∧ t.dirty = s.dirty

/-- Both guards run down by one (R32). -/
def GuardsRun (s t : State) : Prop := t.hiGuard = s.hiGuard - 1 ∧ t.loGuard = s.loGuard - 1

/-- The parameters, the fault and the draws are unchanged. -/
def RestSame (s t : State) : Prop := t.params = s.params ∧ t.fault = s.fault ∧ t.draws = s.draws

/-- The whole effect of an instruction whose one result goes to a general register: loads, arithmetic and logic,
shifts (R113, R120, R150). -/
def ResultEffect (s t : State) (r : Reg) (v : Word) : Prop :=
  RegWrite s t r v ∧ HiLoSame s t ∧ MemSame s t ∧ GuardsRun s t ∧ RestSame s t ∧ t.pc = s.pc + 4

/-- The whole effect of an instruction that writes HI and LO and nothing else (R160). -/
def HiLoEffect (s t : State) (vhi vlo : Word) : Prop :=
  t.hi = vhi ∧ t.lo = vlo ∧ RegsSame s t ∧ MemSame s t ∧ GuardsRun s t ∧ RestSame s t ∧ t.pc = s.pc + 4

/-- The whole effect of a branch or jump that links nothing (R187). -/
def JumpEffect (s t : State) (target : Word) : Prop :=
  t.pc = target ∧ RegsSame s t ∧ HiLoSame s t ∧ MemSame s t ∧ GuardsRun s t ∧ RestSame s t

/-- The whole effect of a store that writes the bytes `ws` into the aligned word at `base`: each byte written reads
back, every other byte is unchanged, that word becomes dirty, and nothing else changes but guards and pc (R42, R113). -/
def StoreEffect (s t : State) (base : Word) (ws : List (Word × Byte)) : Prop :=
  (∀ w ∈ ws, t.byte w.1 = w.2) ∧ (∀ a, a ∉ ws.map Prod.fst → t.byte a = s.byte a) ∧
    (∀ d, d ∈ t.dirty ↔ d ∈ s.dirty ∨ d = base.toNat) ∧
    RegsSame s t ∧ HiLoSame s t ∧ GuardsRun s t ∧ RestSame s t ∧ t.pc = s.pc + 4

end Sys2Proof.Machine
end

