-- ==== Sys2Proof/Certificates/Slice0/Obligations.lean ====
section
/-! DEFINITION. The statements for the provers. -/

open Sys2Proof Sys2Proof.Machine

/-! ## Encoding -/

/-- R87, R88: decoding the word of an instruction gives the instruction, with every operand at every value. -/
def Obligations.DecodeInvertsEncode : Prop := ∀ i : Instr, decode (encode i) = .ok i

/-- R81, R87, R88: a word that decodes is the word of the instruction it decodes to; no bit of it is free. -/
def Obligations.EncodeInvertsDecode : Prop := ∀ (w : Word) (i : Instr), decode w = .ok i → encode i = w

/-- R78, R79, R81 against R88: the words that decode are exactly those with a listed opcode, a listed function code and
zero unused fields. -/
def Obligations.DecodeAcceptsWellFormedWords : Prop :=
  ∀ w : Word, (∃ i, decode w = .ok i) ↔ (fieldsOf w).wellFormed = true

/-- R88: the 50 patterns are pairwise disjoint. -/
def Obligations.PatternsAreDisjoint : Prop :=
  rows.length = 50 ∧ ∀ (w : Word) (a b : Row), a ∈ rows → b ∈ rows → w &&& a.mask = a.pattern →
    w &&& b.mask = b.pattern → a.mnemonic = b.mnemonic

/-- R89: the three worked encodings, both ways. -/
def Obligations.WorkedEncodings : Prop :=
  (encode (.add 10 8 9) = 0x01095020 ∧ decode 0x01095020 = .ok (.add 10 8 9)) ∧
  (encode (.lw 8 30 (-4)) = 0x8FC8FFFC ∧ decode 0x8FC8FFFC = .ok (.lw 8 30 (-4))) ∧
  (encode (.jal 0x0100006) = 0x0C100006 ∧ decode 0x0C100006 = .ok (.jal 0x0100006) ∧
    jumpTarget 0x0040000C 0x0100006 = 0x00400018)

/-- R80: a word that matches no row is reserved, which covers every reserved op, every reserved funct and every non-zero
unused field; fetching and decoding it raises ReservedInstruction with the word, and nothing else happens. -/
def Obligations.ReservedWordStops : Prop :=
  ∀ w : Word, ((∀ r ∈ rows, w &&& r.mask ≠ r.pattern) ↔ (fieldsOf w).wellFormed = false) ∧
    ∀ s : State, (∀ r ∈ rows, w &&& r.mask ≠ r.pattern) → s.fault = none → s.pc ≠ s.params.haltPc →
      s.fetchWord = .ok w →
      step s = .fault (.reservedInstruction w) ∧
        settle s = { s with fault := some { reason := .reservedInstruction w, pc := s.pc } }

/-! ## The step -/

/-- R10, R43: where the word at the pc may be fetched and decodes to `i`, a step is the rule of `i`; the step adds nothing
around it (the guards and the pc are the last act of each instruction's rule). -/
def Obligations.StepRunsDecodedInstruction : Prop :=
  ∀ (s : State) (i : Instr), s.fault = none → s.pc ≠ s.params.haltPc → s.pc.toNat % 4 = 0 →
    (wordBase s.pc).toNat ∉ s.dirty → (∀ b ∈ span s.pc 4, s.mapped .fetch b = true) →
    decode (s.word s.pc) = .ok i → step s = exec i s

/-- R46, R50, R55, R59, R204: the faults of the fetch, in their order: alignment, modified code, Mapped. -/
def Obligations.FetchFaultOrder : Prop :=
  ∀ s : State, s.fault = none → s.pc ≠ s.params.haltPc →
    (s.pc.toNat % 4 ≠ 0 → step s = .fault (.addressError .fetch s.pc)) ∧
    (s.pc.toNat % 4 = 0 → s.pc.toNat ∈ s.dirty → step s = .fault (.fetchOfModifiedCode s.pc)) ∧
    (s.pc.toNat % 4 = 0 → s.pc.toNat ∉ s.dirty → (∃ n : Nat, n < 4 ∧ s.mapped .fetch (s.pc + BitVec.ofNat 32 n) = false) →
      step s = .fault (.busError .fetch s.pc))

/-- R201: a fault is precise and terminal. The state it leaves is the state before the instruction but for the fault
field, which holds (name, info, pc); no later move changes it, and no run succeeds from it. That a step of a faulted
state answers its fault again, and that `settle` is what records it, is the model's choice (log entry 11). -/
def Obligations.FaultIsPreciseAndTerminal : Prop :=
  ∀ (s : State) (f : Fault), s.fault = none → step s = .fault f →
    settle s = { s with fault := some { reason := f, pc := s.pc } } ∧
    step (settle s) = .fault f ∧ (∀ n, settleN n (settle s) = settle s) ∧ ¬s.succeeds

/-- R214: at HALT_PC with no fault the run has ended successfully, before any fetch, and the state is final. That the
step answers the same state is the model's choice (log entry 12). -/
def Obligations.EndedRunIsFinal : Prop :=
  ∀ s : State, s.fault = none → s.pc = s.params.haltPc → step s = .next s ∧ s.succeeds ∧ ∀ n, settleN n s = s

/-- R10: a step yields the next state or a fault; there is no third outcome. -/
def Obligations.StepNeverRefuses : Prop := ∀ (s : State) (r : Refusal), step s ≠ .refused r

/-! ## Reset -/

/-- R230: what reset leaves on every platform, for every image and every value of the unspecified registers; the first
fetch is of the word at RESET_PC. -/
def Obligations.BootLeavesResetValues : Prop :=
  ∀ (p : Params) (image : Memory) (gpr : Vector Word 31) (hi lo : Word),
    let s := State.boot p image gpr hi lo
    s.x 0 = 0 ∧ (∀ n : Fin 31, s.x (n.succ) = gpr[n]) ∧ s.hi = hi ∧ s.lo = lo ∧ s.pc = p.resetPc ∧
      (∀ a, s.byte a = Memory.read image a.toNat) ∧ s.hiGuard = 0 ∧ s.loGuard = 0 ∧ s.dirty = [] ∧ s.fault = none ∧
      s.params = p ∧ (Memory.wf image → s.Inv) ∧
      (wordAligned p.resetPc → (∀ b ∈ span p.resetPc 4, s.mapped .fetch b = true) →
        s.fetchWord = .ok (s.word p.resetPc))

/-- R35: the invariant holds at `State.reset`, whose pc is word-aligned. The parameter values and the register values there
are the model's choice (log entries 2 to 9). -/
def Obligations.ResetMeetsInvariant : Prop := State.reset.Inv ∧ wordAligned State.reset.pc

/-! ## What every step keeps -/

/-- R31, R33: every step keeps the invariant: memory in canonical form and inside the address space, the guards 0, 1 or 2,
`dirty` a rising list of word-aligned addresses. -/
def Obligations.StepKeepsInvariant : Prop := ∀ s t : State, s.Inv → step s = .next t → t.Inv

/-- R5, R31: no step changes a parameter, and a step that gives a next state neither finds nor leaves a fault. -/
def Obligations.StepKeepsParameters : Prop :=
  ∀ s t : State, step s = .next t → t.params = s.params ∧ s.fault = none ∧ t.fault = none

/-- R50, R51: no step changes a byte that is not Mapped for store. -/
def Obligations.UnmappedByteIsNeverWritten : Prop :=
  ∀ (s t : State) (a : Word), step s = .next t → s.mapped .store a = false → t.byte a = s.byte a

/-- R31, R42: a step that changes a byte has its aligned word in `dirty` afterwards, and no step takes a word out. -/
def Obligations.ChangedByteIsDirty : Prop :=
  ∀ s t : State, step s = .next t →
    (∀ d ∈ s.dirty, d ∈ t.dirty) ∧ ∀ a, t.byte a ≠ s.byte a → (wordBase a).toNat ∈ t.dirty

/-- R55, R235: however long the run, a word at the pc that no longer reads as it did at the start is not executed: the
fetch raises FetchOfModifiedCode. -/
def Obligations.ModifiedCodeIsNeverRun : Prop :=
  ∀ (s : State) (n : Nat),
    let t := settleN n s
    t.fault = none → t.pc ≠ t.params.haltPc → t.pc.toNat % 4 = 0 → t.word t.pc ≠ s.word t.pc →
      step t = .fault (.fetchOfModifiedCode t.pc)

/-- R232: no step changes HI while its guard runs, nor LO while its guard runs. -/
def Obligations.RunningGuardKeepsHiLo : Prop :=
  ∀ s t : State, step s = .next t → (s.hiGuard > 0 → t.hi = s.hi) ∧ (s.loGuard > 0 → t.lo = s.lo)

/-- R232: after an mfhi the next two instructions executed leave HI as the mfhi read it; so for mflo and LO. -/
def Obligations.MoveGuardsTwoInstructions : Prop :=
  ∀ (s s1 s2 s3 : State) (rd : Reg), step s = .next s1 → step s1 = .next s2 → step s2 = .next s3 →
    (s.runs (.mfhi rd) → s3.hi = s.hi) ∧ (s.runs (.mflo rd) → s3.lo = s.lo)

/-! ## What an instruction may change -/

/-- R26: only mult, multu, div, divu and mthi change HI, only mult, multu, div, divu and mtlo change LO. -/
def Obligations.OnlyListedInstructionsWriteHiLo : Prop :=
  ∀ (i : Instr) (s t : State), exec i s = .next t →
    (writesHi i = false → t.hi = s.hi) ∧ (writesLo i = false → t.lo = s.lo)

/-- R28: an instruction that is none of the six branches and jumps goes on to pc + 4, modulo 2^32. -/
def Obligations.OnlyTransfersLeaveSequence : Prop :=
  ∀ (i : Instr) (s t : State), exec i s = .next t → isTransfer i = false → t.pc.toNat = (s.pc.toNat + 4) % 2 ^ 32

/-- R28, R187: from a word-aligned pc only jr and jalr can produce a misaligned one, and it is their register's value. -/
def Obligations.OnlyJrJalrMisalignPc : Prop :=
  ∀ (i : Instr) (s t : State), exec i s = .next t → wordAligned s.pc → ¬wordAligned t.pc →
    ∃ rs, (i = .jr rs ∨ i = .jalr rs) ∧ t.pc = s.x rs

/-- R21, R23: the frame of all 50 instructions on registers: only the destination can change, which for jal and jalr is
register 31, and register 0 reads 0. -/
def Obligations.RegisterFrame : Prop :=
  ∀ (i : Instr) (s t : State), exec i s = .next t → t.x 0 = 0 ∧ ∀ r, destOf i ≠ some r → t.x r = s.x r

/-- R42, R47: the frame of all 50 instructions on memory: only the bytes that `storesOf` names can change, and exactly
their words become dirty. -/
def Obligations.MemoryFrame : Prop :=
  ∀ (i : Instr) (s t : State), exec i s = .next t →
    (∀ a, a ∉ (storesOf i s).map Prod.fst → t.byte a = s.byte a) ∧
    ∀ d, d ∈ t.dirty ↔ d ∈ s.dirty ∨ ∃ w ∈ storesOf i s, d = (wordBase w.1).toNat

/-- R32: the update of the guard counters after every executed instruction, and the check made before a write. -/
def Obligations.GuardCounters : Prop :=
  ∀ (i : Instr) (s : State),
    (∀ t, exec i s = .next t →
      ((∃ rd, i = .mfhi rd) → t.hiGuard = 2) ∧ ((¬∃ rd, i = .mfhi rd) → t.hiGuard = max (s.hiGuard - 1) 0) ∧
      ((∃ rd, i = .mflo rd) → t.loGuard = 2) ∧ ((¬∃ rd, i = .mflo rd) → t.loGuard = max (s.loGuard - 1) 0)) ∧
    (writesHi i = true → s.hiGuard > 0 → exec i s = .fault (.hiLoHazard .hi)) ∧
    (writesLo i = true → s.loGuard > 0 → (writesHi i = true → s.hiGuard = 0) → exec i s = .fault (.hiLoHazard .lo))

/-! ## Loads -/

/-- R57, R100: the effective address is the base plus the sign-extended offset, modulo 2^32; register 0 as base gives the
offset alone. An aligned access does not cross the top of the address space, and a partial-word access stays inside one
aligned word. -/
def Obligations.EffectiveAddressWraps : Prop :=
  ∀ (s : State) (rs : Reg) (imm : Half),
    let a := s.effAddr rs imm
    (a.toNat : Int) = ((s.x rs).toNat + imm.toInt) % 2 ^ 32 ∧ s.effAddr 0 imm = imm.signExtend 32 ∧
      (s.x rs = 0xFFFFFFFC → s.effAddr rs 8 = 4) ∧ (a.toNat % 2 = 0 → a.toNat + 1 < 2 ^ 32) ∧
      (a.toNat % 4 = 0 → a.toNat + 3 < 2 ^ 32) ∧
      ∀ e : Endian, ∀ b ∈ (leftLanes e a ++ rightLanes e a).map Prod.fst, b.toNat / 4 = a.toNat / 4

/-- R101, R105: lb sign-extends the byte, lbu zero-extends it; no alignment is needed. -/
def Obligations.ByteLoads : Prop :=
  ∀ (s : State) (rt rs : Reg) (imm : Half), s.mapped .load (s.effAddr rs imm) = true →
    (∃ t v, exec (.lb rt rs imm) s = .next t ∧ v.toInt = (s.byte (s.effAddr rs imm)).toInt ∧ ResultEffect s t rt v) ∧
    (∃ t v, exec (.lbu rt rs imm) s = .next t ∧ v.toNat = (s.byte (s.effAddr rs imm)).toNat ∧ ResultEffect s t rt v)

/-- R102, R106: lh and lhu load the two bytes at an even address in the byte order; lh sign-extends. -/
def Obligations.HalfLoads : Prop :=
  ∀ (s : State) (rt rs : Reg) (imm : Half),
    let a := s.effAddr rs imm
    let n : Nat := halfValue s.params.endian (s.byte a) (s.byte (a + 1))
    a.toNat % 2 = 0 → s.mapped .load a = true → s.mapped .load (a + 1) = true →
    (∃ t v, exec (.lh rt rs imm) s = .next t ∧ v.toInt = (if n < 2 ^ 15 then (n : Int) else n - 2 ^ 16) ∧
      ResultEffect s t rt v) ∧
    (∃ t v, exec (.lhu rt rs imm) s = .next t ∧ v.toNat = n ∧ ResultEffect s t rt v)

/-- R104: lw loads the four bytes at a multiple of 4 in the byte order. -/
def Obligations.WordLoad : Prop :=
  ∀ (s : State) (rt rs : Reg) (imm : Half),
    let a := s.effAddr rs imm
    a.toNat % 4 = 0 → (∀ n : Nat, n < 4 → s.mapped .load (a + BitVec.ofNat 32 n) = true) →
    ∃ t v, exec (.lw rt rs imm) s = .next t ∧ ResultEffect s t rt v ∧
      v.toNat = wordValue s.params.endian (s.byte a) (s.byte (a + 1)) (s.byte (a + 2)) (s.byte (a + 3))

/-- R103, R107: lwl and lwr at any address load the bytes of their side of the aligned word, byte lane by byte lane, and
keep the other bytes of the register. -/
def Obligations.PartialLoads : Prop :=
  ∀ (s : State) (rt rs : Reg) (imm : Half),
    let a := s.effAddr rs imm
    let k := a.toNat % 4
    ((∀ b ∈ (leftLanes s.params.endian a).map Prod.fst, s.mapped .load b = true) →
      ∃ t v, exec (.lwl rt rs imm) s = .next t ∧ ResultEffect s t rt v ∧
        (s.params.endian = .big → ∀ j : Nat, j < 4 →
          byteLane v j = if k ≤ j then s.byte (a + BitVec.ofNat 32 (3 - j)) else byteLane (s.x rt) j) ∧
        (s.params.endian = .little → ∀ j : Nat, j < 4 →
          byteLane v j = if 3 ≤ j + k then s.byte (a - BitVec.ofNat 32 (3 - j)) else byteLane (s.x rt) j)) ∧
    ((∀ b ∈ (rightLanes s.params.endian a).map Prod.fst, s.mapped .load b = true) →
      ∃ t v, exec (.lwr rt rs imm) s = .next t ∧ ResultEffect s t rt v ∧
        (s.params.endian = .big → ∀ j : Nat, j < 4 →
          byteLane v j = if j ≤ k then s.byte (a - BitVec.ofNat 32 j) else byteLane (s.x rt) j) ∧
        (s.params.endian = .little → ∀ j : Nat, j < 4 →
          byteLane v j = if j + k ≤ 3 then s.byte (a + BitVec.ofNat 32 j) else byteLane (s.x rt) j))

/-- R113: the pair lwl, lwr, in either order, loads the word at any address: with big the lwl is at the address and the
lwr three above it, with little the other way round. -/
def Obligations.LoadPairReadsUnalignedWord : Prop :=
  ∀ (s : State) (rt rs : Reg) (lo hi : Half),
    let a := s.effAddr rs lo
    rt ≠ 0 → rt ≠ rs → s.effAddr rs hi = a + 3 → (∀ n : Nat, n < 4 → s.mapped .load (a + BitVec.ofNat 32 n) = true) →
    let left : Instr := if s.params.endian = .big then .lwl rt rs lo else .lwl rt rs hi
    let right : Instr := if s.params.endian = .big then .lwr rt rs hi else .lwr rt rs lo
    ∀ first second : Instr, (first = left ∧ second = right ∨ first = right ∧ second = left) →
      ∃ t u, exec first s = .next t ∧ exec second t = .next u ∧
        (u.x rt).toNat = wordValue s.params.endian (s.byte a) (s.byte (a + 1)) (s.byte (a + 2)) (s.byte (a + 3))

/-! ## Stores -/

/-- R108: sb stores the low 8 bits of the register. -/
def Obligations.ByteStore : Prop :=
  ∀ (s : State) (rt rs : Reg) (imm : Half),
    let a := s.effAddr rs imm
    Memory.wf s.mem → s.mapped .store a = true →
    ∃ t, exec (.sb rt rs imm) s = .next t ∧ StoreEffect s t (wordBase a) (byteWrites a (s.x rt)) ∧
      (t.byte a).toNat = (s.x rt).toNat % 2 ^ 8

/-- R109: sh stores the low 16 bits at an even address, in the byte order. -/
def Obligations.HalfStore : Prop :=
  ∀ (s : State) (rt rs : Reg) (imm : Half),
    let a := s.effAddr rs imm
    Memory.wf s.mem → a.toNat % 2 = 0 → s.mapped .store a = true → s.mapped .store (a + 1) = true →
    ∃ t, exec (.sh rt rs imm) s = .next t ∧
      StoreEffect s t (wordBase a) (halfWrites s.params.endian a (s.x rt)) ∧
      halfValue s.params.endian (t.byte a) (t.byte (a + 1)) = (s.x rt).toNat % 2 ^ 16

/-- R111: sw stores the word at a multiple of 4, in the byte order. -/
def Obligations.WordStore : Prop :=
  ∀ (s : State) (rt rs : Reg) (imm : Half),
    let a := s.effAddr rs imm
    Memory.wf s.mem → a.toNat % 4 = 0 → (∀ n : Nat, n < 4 → s.mapped .store (a + BitVec.ofNat 32 n) = true) →
    ∃ t, exec (.sw rt rs imm) s = .next t ∧ StoreEffect s t a (wordWrites s.params.endian a (s.x rt)) ∧
      wordValue s.params.endian (t.byte a) (t.byte (a + 1)) (t.byte (a + 2)) (t.byte (a + 3)) = (s.x rt).toNat

/-- R110, R112: swl and swr at any address write the bytes of their side of the aligned word, byte lane by byte lane, and
no other byte. -/
def Obligations.PartialStores : Prop :=
  ∀ (s : State) (rt rs : Reg) (imm : Half),
    let a := s.effAddr rs imm
    let k := a.toNat % 4
    let v := s.x rt
    Memory.wf s.mem →
    ((∀ b ∈ (leftLanes s.params.endian a).map Prod.fst, s.mapped .store b = true) →
      ∃ t, exec (.swl rt rs imm) s = .next t ∧
        StoreEffect s t (wordBase a) (laneBytes (leftLanes s.params.endian a) v) ∧
        (s.params.endian = .big → ∀ j : Nat, j < 4 → k ≤ j → t.byte (a + BitVec.ofNat 32 (3 - j)) = byteLane v j) ∧
        (s.params.endian = .little → ∀ j : Nat, j < 4 → 3 ≤ j + k →
          t.byte (a - BitVec.ofNat 32 (3 - j)) = byteLane v j)) ∧
    ((∀ b ∈ (rightLanes s.params.endian a).map Prod.fst, s.mapped .store b = true) →
      ∃ t, exec (.swr rt rs imm) s = .next t ∧
        StoreEffect s t (wordBase a) (laneBytes (rightLanes s.params.endian a) v) ∧
        (s.params.endian = .big → ∀ j : Nat, j < 4 → j ≤ k → t.byte (a - BitVec.ofNat 32 j) = byteLane v j) ∧
        (s.params.endian = .little → ∀ j : Nat, j < 4 → j + k ≤ 3 → t.byte (a + BitVec.ofNat 32 j) = byteLane v j))

/-- R113: the pair swl, swr, in either order, stores the word at any address and touches no other byte. -/
def Obligations.StorePairWritesUnalignedWord : Prop :=
  ∀ (s : State) (rt rs : Reg) (lo hi : Half),
    let a := s.effAddr rs lo
    Memory.wf s.mem → s.effAddr rs hi = a + 3 → (∀ n : Nat, n < 4 → s.mapped .store (a + BitVec.ofNat 32 n) = true) →
    let left : Instr := if s.params.endian = .big then .swl rt rs lo else .swl rt rs hi
    let right : Instr := if s.params.endian = .big then .swr rt rs hi else .swr rt rs lo
    ∀ first second : Instr, (first = left ∧ second = right ∨ first = right ∧ second = left) →
      ∃ t u, exec first s = .next t ∧ exec second t = .next u ∧
        wordValue s.params.endian (u.byte a) (u.byte (a + 1)) (u.byte (a + 2)) (u.byte (a + 3)) = (s.x rt).toNat ∧
        ∀ b, b ∉ span a 4 → u.byte b = s.byte b

/-- R52, R111, R104: a word stored and then loaded from the same address comes back, under either byte order. -/
def Obligations.LoadReturnsStoredWord : Prop :=
  ∀ (s t u : State) (rt rs rt' rs' : Reg) (imm imm' : Half), Memory.wf s.mem → rt' ≠ 0 →
    s.effAddr rs' imm' = s.effAddr rs imm → exec (.sw rt rs imm) s = .next t → exec (.lw rt' rs' imm') t = .next u →
    u.x rt' = s.x rt

/-- R58: what narrower reads see of a word written, for both byte orders; and how writes compose: after any list of byte
writes, in any order and to any addresses, each byte reads as last written, or as before if the list does not name it, and
a word or halfword read gives its bytes joined in the byte order. -/
def Obligations.NarrowReadsOfWrittenWord : Prop :=
  ∀ (s : State) (a : Word), Memory.wf s.mem → a.toNat % 4 = 0 →
    let t := s.putBytes (wordWrites s.params.endian a 0x11223344)
    t.word a = 0x11223344 ∧
    (s.params.endian = .big →
      t.byte a = 0x11 ∧ t.byte (a + 1) = 0x22 ∧ t.byte (a + 2) = 0x33 ∧ t.byte (a + 3) = 0x44 ∧
      t.half a = 0x1122 ∧ t.half (a + 2) = 0x3344) ∧
    (s.params.endian = .little →
      t.byte a = 0x44 ∧ t.byte (a + 1) = 0x33 ∧ t.byte (a + 2) = 0x22 ∧ t.byte (a + 3) = 0x11 ∧
      t.half a = 0x3344 ∧ t.half (a + 2) = 0x1122) ∧
    ∀ ws : List (Word × Byte),
      let u := s.putBytes ws
      let last (b : Word) : Byte := lastWritten ws b (s.byte b)
      (∀ b, u.byte b = last b) ∧
      u.word a = joinWord s.params.endian (last a) (last (a + 1)) (last (a + 2)) (last (a + 3)) ∧
      u.half a = joinHalf s.params.endian (last a) (last (a + 1)) ∧
      u.half (a + 2) = joinHalf s.params.endian (last (a + 2)) (last (a + 3))

/-! ## Faults of loads and stores -/

/-- R44, R45, R59: a misaligned halfword or word access faults with its address, whether or not it is mapped. -/
def Obligations.MisalignedAccessFaults : Prop :=
  ∀ (s : State) (rt rs : Reg) (imm : Half),
    let a := s.effAddr rs imm
    (a.toNat % 2 ≠ 0 →
      exec (.lh rt rs imm) s = .fault (.addressError .load a) ∧
      exec (.lhu rt rs imm) s = .fault (.addressError .load a) ∧
      exec (.sh rt rs imm) s = .fault (.addressError .store a)) ∧
    (a.toNat % 4 ≠ 0 →
      exec (.lw rt rs imm) s = .fault (.addressError .load a) ∧
      exec (.sw rt rs imm) s = .fault (.addressError .store a))

/-- R50, R59, R113: an aligned access to a byte that is not Mapped for it faults with the effective address. -/
def Obligations.UnmappedAccessFaults : Prop :=
  ∀ (s : State) (rt rs : Reg) (imm : Half),
    let a := s.effAddr rs imm
    let noLoad (bytes : List Word) : Prop := ∃ b ∈ bytes, s.mapped .load b = false
    let noStore (bytes : List Word) : Prop := ∃ b ∈ bytes, s.mapped .store b = false
    (noLoad [a] → exec (.lb rt rs imm) s = .fault (.busError .load a) ∧
      exec (.lbu rt rs imm) s = .fault (.busError .load a)) ∧
    (a.toNat % 2 = 0 → noLoad [a, a + 1] → exec (.lh rt rs imm) s = .fault (.busError .load a) ∧
      exec (.lhu rt rs imm) s = .fault (.busError .load a)) ∧
    (a.toNat % 4 = 0 → noLoad [a, a + 1, a + 2, a + 3] → exec (.lw rt rs imm) s = .fault (.busError .load a)) ∧
    (noLoad ((leftLanes s.params.endian a).map Prod.fst) → exec (.lwl rt rs imm) s = .fault (.busError .load a)) ∧
    (noLoad ((rightLanes s.params.endian a).map Prod.fst) → exec (.lwr rt rs imm) s = .fault (.busError .load a)) ∧
    (noStore [a] → exec (.sb rt rs imm) s = .fault (.busError .store a)) ∧
    (a.toNat % 2 = 0 → noStore [a, a + 1] → exec (.sh rt rs imm) s = .fault (.busError .store a)) ∧
    (a.toNat % 4 = 0 → noStore [a, a + 1, a + 2, a + 3] → exec (.sw rt rs imm) s = .fault (.busError .store a)) ∧
    (noStore ((leftLanes s.params.endian a).map Prod.fst) → exec (.swl rt rs imm) s = .fault (.busError .store a)) ∧
    (noStore ((rightLanes s.params.endian a).map Prod.fst) → exec (.swr rt rs imm) s = .fault (.busError .store a))

/-! ## Arithmetic and logic -/

/-- R120, R121, R123, R125: where the exact signed result fits 32 bits, add, sub and addi deliver it. -/
def Obligations.SignedResultIsExact : Prop :=
  ∀ (s : State) (rd rs rt : Reg) (imm : Half),
    let fits (n : Int) : Prop := -2 ^ 31 ≤ n ∧ n ≤ 2 ^ 31 - 1
    (fits ((s.x rs).toInt + (s.x rt).toInt) →
      ∃ t v, exec (.add rd rs rt) s = .next t ∧ v.toInt = (s.x rs).toInt + (s.x rt).toInt ∧ ResultEffect s t rd v) ∧
    (fits ((s.x rs).toInt - (s.x rt).toInt) →
      ∃ t v, exec (.sub rd rs rt) s = .next t ∧ v.toInt = (s.x rs).toInt - (s.x rt).toInt ∧ ResultEffect s t rd v) ∧
    (fits ((s.x rs).toInt + imm.toInt) →
      ∃ t v, exec (.addi rd rs imm) s = .next t ∧ v.toInt = (s.x rs).toInt + imm.toInt ∧ ResultEffect s t rd v)

/-- R82, R120: where the exact signed result does not fit 32 bits, add, sub and addi fault, register 0 as destination
included. -/
def Obligations.SignedOverflowFaults : Prop :=
  ∀ (s : State) (rd rs rt : Reg) (imm : Half),
    let fits (n : Int) : Prop := -2 ^ 31 ≤ n ∧ n ≤ 2 ^ 31 - 1
    (¬fits ((s.x rs).toInt + (s.x rt).toInt) → exec (.add rd rs rt) s = .fault .integerOverflow) ∧
    (¬fits ((s.x rs).toInt - (s.x rt).toInt) → exec (.sub rd rs rt) s = .fault .integerOverflow) ∧
    (¬fits ((s.x rs).toInt + imm.toInt) → exec (.addi rd rs imm) s = .fault .integerOverflow)

/-- R122, R124, R126: addu, subu and addiu never fault and keep the result modulo 2^32; addiu's immediate is
sign-extended. -/
def Obligations.UnsignedArithmeticWraps : Prop :=
  ∀ (s : State) (rd rs rt : Reg) (imm : Half),
    (∃ t v, exec (.addu rd rs rt) s = .next t ∧ v.toNat = ((s.x rs).toNat + (s.x rt).toNat) % 2 ^ 32 ∧
      ResultEffect s t rd v) ∧
    (∃ t v, exec (.subu rd rs rt) s = .next t ∧ (v.toNat : Int) = ((s.x rs).toNat - (s.x rt).toNat : Int) % 2 ^ 32 ∧
      ResultEffect s t rd v) ∧
    (∃ t v, exec (.addiu rd rs imm) s = .next t ∧ (v.toNat : Int) = ((s.x rs).toNat + imm.toInt) % 2 ^ 32 ∧
      ResultEffect s t rd v)

/-- R127 to R133: the bitwise instructions, bit by bit; the immediates are zero-extended. -/
def Obligations.BitwiseResults : Prop :=
  ∀ (s : State) (rd rs rt : Reg) (imm : Half),
    let x (n : Nat) : Bool := (s.x rs).getLsbD n
    let y (n : Nat) : Bool := (s.x rt).getLsbD n
    let z (n : Nat) : Bool := decide (n < 16) && imm.getLsbD n
    let gives (i : Instr) (f : Nat → Bool) : Prop :=
      ∃ t v, exec i s = .next t ∧ ResultEffect s t rd v ∧ ∀ n, n < 32 → v.getLsbD n = f n
    gives (.and rd rs rt) (fun n => x n && y n) ∧ gives (.or rd rs rt) (fun n => x n || y n) ∧
    gives (.xor rd rs rt) (fun n => x n != y n) ∧ gives (.nor rd rs rt) (fun n => !(x n || y n)) ∧
    gives (.andi rd rs imm) (fun n => x n && z n) ∧ gives (.ori rd rs imm) (fun n => x n || z n) ∧
    gives (.xori rd rs imm) (fun n => x n != z n)

/-- R134 to R137: slt and slti compare signed, sltu and sltiu unsigned; sltiu's immediate stands for itself below 0x8000
and for itself plus 0xFFFF0000 from there. -/
def Obligations.ComparisonResults : Prop :=
  ∀ (s : State) (rd rs rt : Reg) (imm : Half),
    let gives (i : Instr) (c : Prop) : Prop :=
      ∃ t v, exec i s = .next t ∧ ResultEffect s t rd v ∧ (c → v = 1) ∧ (¬c → v = 0)
    gives (.slt rd rs rt) ((s.x rs).toInt < (s.x rt).toInt) ∧
    gives (.sltu rd rs rt) ((s.x rs).toNat < (s.x rt).toNat) ∧
    gives (.slti rd rs imm) ((s.x rs).toInt < imm.toInt) ∧
    gives (.sltiu rd rs imm) ((s.x rs).toNat < if imm.toNat < 0x8000 then imm.toNat else imm.toNat + 0xFFFF0000)

/-- R138, R139: lui writes the immediate times 2^16, and `lui` then `ori` of the two halves of a constant builds it. -/
def Obligations.LuiThenOriBuildsConstant : Prop :=
  ∀ (s : State) (rt : Reg) (c : Word),
    ∃ t u v w, exec (.lui rt (c.extractLsb' 16 16)) s = .next t ∧ ResultEffect s t rt v ∧
      v.toNat = c.toNat / 2 ^ 16 * 2 ^ 16 ∧
      exec (.ori rt rt (c.extractLsb' 0 16)) t = .next u ∧ ResultEffect t u rt w ∧ (rt ≠ 0 → u.x rt = c)

/-! ## Shifts -/

/-- R150 to R153: sll multiplies by 2^S modulo 2^32, srl divides unsigned by 2^S, sra divides signed by 2^S rounding
toward minus infinity. -/
def Obligations.ConstantShifts : Prop :=
  ∀ (s : State) (rd rt : Reg) (shamt : BitVec 5),
    (∃ t v, exec (.sll rd rt shamt) s = .next t ∧ v.toNat = (s.x rt).toNat * 2 ^ shamt.toNat % 2 ^ 32 ∧
      ResultEffect s t rd v) ∧
    (∃ t v, exec (.srl rd rt shamt) s = .next t ∧ v.toNat = (s.x rt).toNat / 2 ^ shamt.toNat ∧ ResultEffect s t rd v) ∧
    (∃ t v, exec (.sra rd rt shamt) s = .next t ∧ v.toInt = (s.x rt).toInt.fdiv (2 ^ shamt.toNat) ∧
      ResultEffect s t rd v)

/-- R150, R154 to R156: the variable shifts, by x[rs] modulo 32. -/
def Obligations.VariableShifts : Prop :=
  ∀ (s : State) (rd rt rs : Reg),
    let n := (s.x rs).toNat % 32
    (∃ t v, exec (.sllv rd rt rs) s = .next t ∧ v.toNat = (s.x rt).toNat * 2 ^ n % 2 ^ 32 ∧ ResultEffect s t rd v) ∧
    (∃ t v, exec (.srlv rd rt rs) s = .next t ∧ v.toNat = (s.x rt).toNat / 2 ^ n ∧ ResultEffect s t rd v) ∧
    (∃ t v, exec (.srav rd rt rs) s = .next t ∧ v.toInt = (s.x rt).toInt.fdiv (2 ^ n) ∧ ResultEffect s t rd v)

/-! ## Multiplication, division, HI and LO -/

/-- R161, R162: with no guard running, HI and LO hold the exact 64-bit product, HI the more significant half, signed for
mult and unsigned for multu. -/
def Obligations.ProductsAreExact : Prop :=
  ∀ (s : State) (rs rt : Reg), s.hiGuard = 0 → s.loGuard = 0 →
    (∃ t hi lo, exec (.mult rs rt) s = .next t ∧ HiLoEffect s t hi lo ∧
      hi.toInt * 2 ^ 32 + lo.toNat = (s.x rs).toInt * (s.x rt).toInt) ∧
    (∃ t hi lo, exec (.multu rs rt) s = .next t ∧ HiLoEffect s t hi lo ∧
      hi.toNat * 2 ^ 32 + lo.toNat = (s.x rs).toNat * (s.x rt).toNat)

/-- R163: div truncates toward zero and the remainder is 0 or has the sign of the dividend; DIV_RESULT_PLACEMENT says
which register receives which. -/
def Obligations.SignedDivision : Prop :=
  ∀ (s : State) (rs rt : Reg),
    let a := (s.x rs).toInt
    let b := (s.x rt).toInt
    s.hiGuard = 0 → s.loGuard = 0 → b ≠ 0 → ¬(a = -2 ^ 31 ∧ b = -1) →
    ∃ (t : State) (hi lo q r : Word), exec (.div rs rt) s = .next t ∧ HiLoEffect s t hi lo ∧
      a = q.toInt * b + r.toInt ∧ r.toInt.natAbs < b.natAbs ∧ (r.toInt = 0 ∨ (0 < r.toInt ↔ 0 < a)) ∧
      (s.params.divPlacement = .asPrinted → hi = q ∧ lo = r) ∧ (s.params.divPlacement = .conventional → hi = r ∧ lo = q)

/-- R164: divu takes the floor of the quotient. -/
def Obligations.UnsignedDivision : Prop :=
  ∀ (s : State) (rs rt : Reg),
    let a := (s.x rs).toNat
    let b := (s.x rt).toNat
    s.hiGuard = 0 → s.loGuard = 0 → b ≠ 0 →
    ∃ (t : State) (hi lo q r : Word), exec (.divu rs rt) s = .next t ∧ HiLoEffect s t hi lo ∧
      a = q.toNat * b + r.toNat ∧ r.toNat < b ∧
      (s.params.divPlacement = .asPrinted → hi = q ∧ lo = r) ∧ (s.params.divPlacement = .conventional → hi = r ∧ lo = q)

/-- R163, R164: a zero divisor, and for div -2^31 / -1, raise no fault; everything but HI and LO is as for any division.
HI and LO take the next two draws (the form of a draw is the model's, log entry 10). -/
def Obligations.OpenDivisionGoesOn : Prop :=
  ∀ (s : State) (rs rt : Reg), s.hiGuard = 0 → s.loGuard = 0 →
    let goesOn (i : Instr) : Prop :=
      ∃ t, exec i s = .next t ∧ t.hi = Config.any32 s.draws ∧ t.lo = Config.any32 (s.draws + 1) ∧
        t.draws = s.draws + 2 ∧ RegsSame s t ∧ MemSame s t ∧ GuardsRun s t ∧ t.params = s.params ∧ t.fault = s.fault ∧
        t.pc = s.pc + 4
    ((s.x rt).toInt = 0 ∨ ((s.x rs).toInt = -2 ^ 31 ∧ (s.x rt).toInt = -1) → goesOn (.div rs rt)) ∧
    (s.x rt = 0 → goesOn (.divu rs rt))

/-- R165, R167: mfhi and mflo copy HI and LO, whatever the guards, and start their own guard at 2. -/
def Obligations.MovesFromHiLo : Prop :=
  ∀ (s : State) (rd : Reg),
    (∃ t, exec (.mfhi rd) s = .next t ∧ RegWrite s t rd s.hi ∧ HiLoSame s t ∧ MemSame s t ∧ RestSame s t ∧
      t.hiGuard = 2 ∧ t.loGuard = s.loGuard - 1 ∧ t.pc = s.pc + 4) ∧
    (∃ t, exec (.mflo rd) s = .next t ∧ RegWrite s t rd s.lo ∧ HiLoSame s t ∧ MemSame s t ∧ RestSame s t ∧
      t.hiGuard = s.hiGuard - 1 ∧ t.loGuard = 2 ∧ t.pc = s.pc + 4)

/-- R166, R168: mthi writes HI alone and looks at HI's guard alone; so mtlo with LO. -/
def Obligations.MovesToHiLo : Prop :=
  ∀ (s : State) (rs : Reg),
    (s.hiGuard = 0 → ∃ t, exec (.mthi rs) s = .next t ∧ HiLoEffect s t (s.x rs) s.lo) ∧
    (s.loGuard = 0 → ∃ t, exec (.mtlo rs) s = .next t ∧ HiLoEffect s t s.hi (s.x rs))

/-! ## Branches and jumps -/

/-- R181, R182: beq and bne go to pc + 4 + 4 I, modulo 2^32, when their condition holds, and to pc + 4 otherwise. -/
def Obligations.BranchTargets : Prop :=
  ∀ (s : State) (rs rt : Reg) (imm : Half),
    let taken : Int := (s.pc.toNat + 4 + 4 * imm.toInt) % 2 ^ 32
    let fallThrough : Int := (s.pc.toNat + 4) % 2 ^ 32
    (∃ t target, exec (.beq rs rt imm) s = .next t ∧ JumpEffect s t target ∧
      (s.x rs = s.x rt → (target.toNat : Int) = taken) ∧ (s.x rs ≠ s.x rt → (target.toNat : Int) = fallThrough)) ∧
    (∃ t target, exec (.bne rs rt imm) s = .next t ∧ JumpEffect s t target ∧
      (s.x rs ≠ s.x rt → (target.toNat : Int) = taken) ∧ (s.x rs = s.x rt → (target.toNat : Int) = fallThrough))

/-- R183, R185: j and jal stay in the 256-MiB region of pc + 4; jal links pc + 4 into register 31. -/
def Obligations.RegionJumps : Prop :=
  ∀ (s : State) (target : BitVec 26),
    let n := (s.pc.toNat + 4) % 2 ^ 32 / 2 ^ 28 * 2 ^ 28 + 4 * target.toNat
    (∃ t dest, exec (.j target) s = .next t ∧ JumpEffect s t dest ∧ dest.toNat = n) ∧
    (∃ t, exec (.jal target) s = .next t ∧ t.pc.toNat = n ∧ RegWrite s t 31 (s.pc + 4) ∧ HiLoSame s t ∧ MemSame s t ∧
      GuardsRun s t ∧ RestSame s t)

/-- R184, R186: jr and jalr go to all 32 bits of their register, jalr links pc + 4 into register 31; a misaligned target
faults at the next fetch, after the link has been written; jalr with rs = 31 faults with its word. -/
def Obligations.RegisterJumps : Prop :=
  ∀ (s : State) (rs : Reg),
    let faultsNext (t : State) : Prop := s.fault = none → s.x rs ≠ s.params.haltPc → (s.x rs).toNat % 4 ≠ 0 →
      step t = .fault (.addressError .fetch (s.x rs))
    (∃ t, exec (.jr rs) s = .next t ∧ JumpEffect s t (s.x rs) ∧ faultsNext t) ∧
    (rs ≠ 31 → ∃ t, exec (.jalr rs) s = .next t ∧ t.pc = s.x rs ∧ RegWrite s t 31 (s.pc + 4) ∧ HiLoSame s t ∧
      MemSame s t ∧ GuardsRun s t ∧ RestSame s t ∧ faultsNext t) ∧
    exec (.jalr 31) s = .fault (.unpredictableOperands 0x03E0F809)

/-- R188: a call by jal or jalr, then a `jr $ra` wherever register 31 still holds the link, comes back to the
instruction after the call. -/
def Obligations.ReturnComesBackAfterCall : Prop :=
  ∀ (s t u : State) (i : Instr), (∃ target, i = .jal target) ∨ (∃ rs, i = .jalr rs) →
    exec i s = .next t → u.x 31 = t.x 31 → ∃ v, exec (.jr 31) u = .next v ∧ v.pc = s.pc + 4

/-! ## The variant with a delay slot -/

/-- R189: the variant machine. After reset `next` is pc + 4, and a step runs the decoded instruction. An instruction that is
no branch or jump acts as in the machine without slots and moves the pair (pc, next) on. Outside a slot each of the six
branches and jumps goes on to its slot: a taken beq or bne, j, jr, jal and jalr set `next` to the target they have in the
machine without slots, an untaken beq or bne to next + 4; jal and jalr link pc + 8; the slot's instruction then executes
once and the target follows. Every fault of a step of the machine without slots stays, those of the fetch and decode
included, so a misaligned target faults when it is fetched; and a branch or jump in a slot faults. That fault's name, and
that the slot of an untaken branch counts, are the model's choice (log entry 16). -/
def Obligations.DelaySlotVariant : Prop :=
  (∀ s : State, DelayState.ofReset s = { base := s, next := s.pc + 4, inSlot := false }) ∧
  (∀ (d : DelayState) (i : Instr), d.base.runs i → delayStep d = delayExec i d) ∧
  (∀ (d : DelayState) (i : Instr) (t : State), isTransfer i = false → exec i d.base = .next t →
    delayExec i d = .next { base := { t with pc := d.next }, next := d.next + 4, inSlot := false }) ∧
  (∀ (d : DelayState) (i : Instr) (f : Fault), d.inSlot = false ∨ isTransfer i = false → exec i d.base = .fault f →
    delayExec i d = .fault f) ∧
  (∀ (d : DelayState) (f : Fault), step d.base = .fault f → delayStep d = .fault f) ∧
  (∀ (d : DelayState) (i : Instr), d.inSlot = true → isTransfer i = true →
    delayExec i d = .fault (.unpredictableOperands (encode i))) ∧
  ∀ (d : DelayState) (rs rt : Reg) (imm : Half) (target : BitVec 26), d.inSlot = false →
    let x := d.base.x
    let branch : Int := (d.base.pc.toNat + 4 + 4 * imm.toInt) % 2 ^ 32
    let onward : Int := (d.next.toNat + 4) % 2 ^ 32
    let region : Int := (d.base.pc.toNat + 4) % 2 ^ 32 / 2 ^ 28 * 2 ^ 28 + 4 * target.toNat
    let transfers (i : Instr) (dest : Int) (regs : State → Prop) : Prop :=
      ∃ e, delayExec i d = .next e ∧ e.base.pc = d.next ∧ (e.next.toNat : Int) = dest ∧ e.inSlot = true ∧ regs e.base ∧
        HiLoSame d.base e.base ∧ MemSame d.base e.base ∧ GuardsRun d.base e.base ∧ RestSame d.base e.base ∧
        ∀ k t, isTransfer k = false → exec k e.base = .next t →
          ∃ f, delayExec k e = .next f ∧ f.base.pc = e.next ∧ f.next = e.next + 4 ∧ f.inSlot = false
    let keeps (t : State) : Prop := RegsSame d.base t
    let links (t : State) : Prop := RegWrite d.base t 31 (d.base.pc + 8)
    (x rs = x rt → transfers (.beq rs rt imm) branch keeps) ∧ (x rs ≠ x rt → transfers (.beq rs rt imm) onward keeps) ∧
    (x rs ≠ x rt → transfers (.bne rs rt imm) branch keeps) ∧ (x rs = x rt → transfers (.bne rs rt imm) onward keeps) ∧
    transfers (.j target) region keeps ∧ transfers (.jr rs) (x rs).toNat keeps ∧
    transfers (.jal target) region links ∧ (rs ≠ 31 → transfers (.jalr rs) (x rs).toNat links) ∧
    delayExec (.jalr 31) d = .fault (.unpredictableOperands 0x03E0F809)
end

