-- ==== Sys2Proof/Laws/Decode.lean ====
section
/-! SUPPORT. The fields of the three formats, and the decoder as a relation between a word and its row. -/

namespace Sys2Proof

/-! ## The fields of a word built by a format -/

theorem fields_of_six (a : BitVec 6) (b c d e : BitVec 5) (f : BitVec 6) :
    BitVec.extractLsb' (n := 6 + 5 + 5 + 5 + 5 + 6) 26 6 (a ++ b ++ c ++ d ++ e ++ f) = a ∧
    BitVec.extractLsb' (n := 6 + 5 + 5 + 5 + 5 + 6) 21 5 (a ++ b ++ c ++ d ++ e ++ f) = b ∧
    BitVec.extractLsb' (n := 6 + 5 + 5 + 5 + 5 + 6) 16 5 (a ++ b ++ c ++ d ++ e ++ f) = c ∧
    BitVec.extractLsb' (n := 6 + 5 + 5 + 5 + 5 + 6) 11 5 (a ++ b ++ c ++ d ++ e ++ f) = d ∧
    BitVec.extractLsb' (n := 6 + 5 + 5 + 5 + 5 + 6) 6 5 (a ++ b ++ c ++ d ++ e ++ f) = e ∧
    BitVec.extractLsb' (n := 6 + 5 + 5 + 5 + 5 + 6) 0 6 (a ++ b ++ c ++ d ++ e ++ f) = f := by
  refine ⟨?_, ?_, ?_, ?_, ?_, ?_⟩ <;>
    simp (disch := omega) only [BitVec.extractLsb'_append_eq_of_le, BitVec.extractLsb'_append_eq_of_add_le,
      BitVec.extractLsb'_eq_self, Nat.reduceSub]

theorem fields_of_four (a : BitVec 6) (b c : BitVec 5) (f : BitVec 16) :
    BitVec.extractLsb' (n := 6 + 5 + 5 + 16) 26 6 (a ++ b ++ c ++ f) = a ∧
    BitVec.extractLsb' (n := 6 + 5 + 5 + 16) 21 5 (a ++ b ++ c ++ f) = b ∧
    BitVec.extractLsb' (n := 6 + 5 + 5 + 16) 16 5 (a ++ b ++ c ++ f) = c ∧
    BitVec.extractLsb' (n := 6 + 5 + 5 + 16) 11 5 (a ++ b ++ c ++ f) = f.extractLsb' 11 5 ∧
    BitVec.extractLsb' (n := 6 + 5 + 5 + 16) 6 5 (a ++ b ++ c ++ f) = f.extractLsb' 6 5 ∧
    BitVec.extractLsb' (n := 6 + 5 + 5 + 16) 0 6 (a ++ b ++ c ++ f) = f.extractLsb' 0 6 ∧
    BitVec.extractLsb' (n := 6 + 5 + 5 + 16) 0 16 (a ++ b ++ c ++ f) = f := by
  refine ⟨?_, ?_, ?_, ?_, ?_, ?_, ?_⟩ <;>
    simp (disch := omega) only [BitVec.extractLsb'_append_eq_of_le, BitVec.extractLsb'_append_eq_of_add_le,
      BitVec.extractLsb'_eq_self, Nat.reduceSub]

@[simp] theorem fieldsOf_formR (rs rt rd : Reg) (sh : BitVec 5) (fn : BitVec 6) :
    fieldsOf (formR rs rt rd sh fn)
      = { op := 0, rs := BitVec.ofFin rs, rt := BitVec.ofFin rt, rd := BitVec.ofFin rd, shamt := sh, funct := fn } := by
  obtain ⟨h1, h2, h3, h4, h5, h6⟩ := fields_of_six 0 (BitVec.ofFin rs) (BitVec.ofFin rt) (BitVec.ofFin rd) sh fn
  rw [fieldsOf, Fields.mk.injEq]
  exact ⟨h1, h2, h3, h4, h5, h6⟩

@[simp] theorem fieldsOf_formI (op : BitVec 6) (rs rt : Reg) (imm : Half) :
    fieldsOf (formI op rs rt imm)
      = { op := op, rs := BitVec.ofFin rs, rt := BitVec.ofFin rt, rd := imm.extractLsb' 11 5,
          shamt := imm.extractLsb' 6 5, funct := imm.extractLsb' 0 6 } := by
  obtain ⟨h1, h2, h3, h4, h5, h6, _⟩ := fields_of_four op (BitVec.ofFin rs) (BitVec.ofFin rt) imm
  rw [fieldsOf, Fields.mk.injEq]
  exact ⟨h1, h2, h3, h4, h5, h6⟩

theorem fieldsOf_formJ_op (op : BitVec 6) (t : BitVec 26) : (fieldsOf (formJ op t)).op = op :=
  BitVec.extractLsb'_append_eq_left

theorem rsOf_eq (w : Word) : rsOf w = (fieldsOf w).rs.toFin := rfl
theorem rtOf_eq (w : Word) : rtOf w = (fieldsOf w).rt.toFin := rfl
theorem rdOf_eq (w : Word) : rdOf w = (fieldsOf w).rd.toFin := rfl
theorem shamtOf_eq (w : Word) : shamtOf w = (fieldsOf w).shamt := rfl

@[simp] theorem rsOf_formR (rs rt rd : Reg) (sh : BitVec 5) (fn : BitVec 6) : rsOf (formR rs rt rd sh fn) = rs := by
  simp [rsOf_eq]
@[simp] theorem rtOf_formR (rs rt rd : Reg) (sh : BitVec 5) (fn : BitVec 6) : rtOf (formR rs rt rd sh fn) = rt := by
  simp [rtOf_eq]
@[simp] theorem rdOf_formR (rs rt rd : Reg) (sh : BitVec 5) (fn : BitVec 6) : rdOf (formR rs rt rd sh fn) = rd := by
  simp [rdOf_eq]
@[simp] theorem shamtOf_formR (rs rt rd : Reg) (sh : BitVec 5) (fn : BitVec 6) :
    shamtOf (formR rs rt rd sh fn) = sh := by
  simp [shamtOf_eq]
@[simp] theorem rsOf_formI (op : BitVec 6) (rs rt : Reg) (imm : Half) : rsOf (formI op rs rt imm) = rs := by
  simp [rsOf_eq]
@[simp] theorem rtOf_formI (op : BitVec 6) (rs rt : Reg) (imm : Half) : rtOf (formI op rs rt imm) = rt := by
  simp [rtOf_eq]
@[simp] theorem immOf_formI (op : BitVec 6) (rs rt : Reg) (imm : Half) : immOf (formI op rs rt imm) = imm :=
  (fields_of_four op (BitVec.ofFin rs) (BitVec.ofFin rt) imm).2.2.2.2.2.2
@[simp] theorem targetOf_formJ (op : BitVec 6) (t : BitVec 26) : targetOf (formJ op t) = t :=
  BitVec.extractLsb'_append_eq_right

/-! ## A word is its fields -/

/-- Two words with the same fields are equal. -/
theorem eq_of_fieldsOf_eq (v w : Word) (h : fieldsOf v = fieldsOf w) : v = w := by
  have key : ∀ u : Word, u = (fieldsOf u).op ++ ((fieldsOf u).rs ++ ((fieldsOf u).rt ++ ((fieldsOf u).rd
      ++ ((fieldsOf u).shamt ++ (fieldsOf u).funct)))) := by
    intro u
    simp only [fieldsOf]
    repeat rw [BitVec.extractLsb'_append_extractLsb'_eq_extractLsb' (by omega)]
    exact BitVec.extractLsb'_eq_self.symm
  rw [key v, key w, h]

/-- A row matches a word exactly when it does so field by field. -/
theorem rowMatches_iff (r : Row) (w : Word) :
    rowMatches r w = true ↔
      (fieldsOf w).op &&& (fieldsOf r.mask).op = (fieldsOf r.pattern).op ∧
      (fieldsOf w).rs &&& (fieldsOf r.mask).rs = (fieldsOf r.pattern).rs ∧
      (fieldsOf w).rt &&& (fieldsOf r.mask).rt = (fieldsOf r.pattern).rt ∧
      (fieldsOf w).rd &&& (fieldsOf r.mask).rd = (fieldsOf r.pattern).rd ∧
      (fieldsOf w).shamt &&& (fieldsOf r.mask).shamt = (fieldsOf r.pattern).shamt ∧
      (fieldsOf w).funct &&& (fieldsOf r.mask).funct = (fieldsOf r.pattern).funct := by
  rw [rowMatches, beq_iff_eq]
  simp only [fieldsOf, ← BitVec.extractLsb'_and]
  constructor
  · intro h; rw [h]; simp
  · rintro ⟨h1, h2, h3, h4, h5, h6⟩
    apply eq_of_fieldsOf_eq
    simp [fieldsOf, h1, h2, h3, h4, h5, h6]

/-! ## The table -/

/-- Each two rows of R88 demand different values of a bit that both look at. -/
theorem rows_clash :
    rows.Pairwise (fun a b => a.mask &&& b.mask &&& (a.pattern ^^^ b.pattern) ≠ 0) := by decide

theorem not_both_match (a b : Row) (w : Word) (h : a.mask &&& b.mask &&& (a.pattern ^^^ b.pattern) ≠ 0) :
    ¬(rowMatches a w = true ∧ rowMatches b w = true) := by
  rintro ⟨ha, hb⟩
  rw [rowMatches, beq_iff_eq] at ha hb
  apply h
  rw [← ha, ← hb]
  ext i hi
  simp
  cases w[i] <;> cases a.mask[i] <;> cases b.mask[i] <;> simp

theorem find_of_pairwise {α : Type} (p : α → Bool) (l : List α) (r : α) (hr : r ∈ l) (hp : p r = true)
    (h : l.Pairwise (fun a b => ¬(p a = true ∧ p b = true))) : l.find? p = some r := by
  induction l with
  | nil => simp at hr
  | cons c l ih =>
    rw [List.pairwise_cons] at h
    rcases List.mem_cons.mp hr with rfl | hr
    · simp [hp]
    · have hc : p c = false := by
        cases hpc : p c
        · rfl
        · exact absurd ⟨hpc, hp⟩ (h.1 r hr)
      rw [List.find?_cons, hc]
      exact ih hr h.2

/-- The decoder answers the row that the word matches, whichever row of the table it is. -/
theorem decode_of_row (k : Nat) (r : Row) (w : Word) (hk : rows[k]? = some r) (hm : rowMatches r w = true) :
    decode w = .ok (r.build w) := by
  have h := find_of_pairwise (rowMatches · w) rows r (List.mem_of_getElem? hk) hm
    (rows_clash.imp fun {a b} h => not_both_match a b w h)
  simp [decode, h]

/-- All that the decoder can answer. -/
theorem decode_cases (w : Word) :
    (∃ r ∈ rows, rowMatches r w = true ∧ decode w = .ok (r.build w)) ∨
      ((∀ r ∈ rows, rowMatches r w = false) ∧ decode w = .error (.reserved w)) := by
  unfold decode
  split
  · rename_i r h
    exact .inl ⟨r, List.mem_of_find?_eq_some h, by simpa using List.find?_some h, rfl⟩
  · rename_i h
    exact .inr ⟨fun r hr => by simpa using (List.find?_eq_none.mp h) r hr, rfl⟩

end Sys2Proof
end

