-- ==== Sys2Proof/Laws/State.lean ====
section
/-! SUPPORT. One lemma a field for each update of the state, so that no later proof unfolds a record update. -/

namespace Sys2Proof.Machine

/-! ## Registers -/

@[simp] theorem State.x_zero (s : State) : s.x 0 = 0 := rfl

theorem State.x_setX_self (s : State) (r : Reg) (v : Word) (h : r ≠ 0) : (s.setX r v).x r = v := by
  simp [State.x, State.setX, h]

theorem State.x_setX_other (s : State) (r q : Reg) (v : Word) (h : q ≠ r ∨ q = 0) : (s.setX r v).x q = s.x q := by
  by_cases hr : r = 0
  · simp [State.setX, hr]
  by_cases hq : q = 0
  · simp [State.x, hq]
  have hne : r.val - 1 ≠ q.val - 1 := by
    rcases h with h | h
    · simp only [ne_eq, Fin.ext_iff, Fin.val_zero] at h hr hq; omega
    · exact absurd h hq
  simp [State.x, State.setX, hr, hq, hne]

@[simp] theorem State.setX_params (s : State) (r : Reg) (v : Word) : (s.setX r v).params = s.params := by
  unfold State.setX; split <;> rfl
@[simp] theorem State.setX_hi (s : State) (r : Reg) (v : Word) : (s.setX r v).hi = s.hi := by
  unfold State.setX; split <;> rfl
@[simp] theorem State.setX_lo (s : State) (r : Reg) (v : Word) : (s.setX r v).lo = s.lo := by
  unfold State.setX; split <;> rfl
@[simp] theorem State.setX_pc (s : State) (r : Reg) (v : Word) : (s.setX r v).pc = s.pc := by
  unfold State.setX; split <;> rfl
@[simp] theorem State.setX_mem (s : State) (r : Reg) (v : Word) : (s.setX r v).mem = s.mem := by
  unfold State.setX; split <;> rfl
@[simp] theorem State.setX_hiGuard (s : State) (r : Reg) (v : Word) : (s.setX r v).hiGuard = s.hiGuard := by
  unfold State.setX; split <;> rfl
@[simp] theorem State.setX_loGuard (s : State) (r : Reg) (v : Word) : (s.setX r v).loGuard = s.loGuard := by
  unfold State.setX; split <;> rfl
@[simp] theorem State.setX_dirty (s : State) (r : Reg) (v : Word) : (s.setX r v).dirty = s.dirty := by
  unfold State.setX; split <;> rfl
@[simp] theorem State.setX_fault (s : State) (r : Reg) (v : Word) : (s.setX r v).fault = s.fault := by
  unfold State.setX; split <;> rfl
@[simp] theorem State.setX_draws (s : State) (r : Reg) (v : Word) : (s.setX r v).draws = s.draws := by
  unfold State.setX; split <;> rfl
@[simp] theorem State.setX_byte (s : State) (r : Reg) (v a : Word) : (s.setX r v).byte a = s.byte a := by
  simp [State.byte]
@[simp] theorem State.setX_npc (s : State) (r : Reg) (v : Word) : (s.setX r v).npc = s.npc := by
  simp [State.npc]

/-! ## HI and LO -/

@[simp] theorem State.x_withHi (s : State) (v : Word) (r : Reg) : ({ s with hi := v } : State).x r = s.x r := rfl
@[simp] theorem State.x_withLo (s : State) (v : Word) (r : Reg) : ({ s with lo := v } : State).x r = s.x r := rfl
@[simp] theorem State.x_withHiLo (s : State) (v w : Word) (r : Reg) :
    ({ s with hi := v, lo := w } : State).x r = s.x r := rfl
@[simp] theorem State.x_withDraws (s : State) (n : Nat) (r : Reg) : ({ s with draws := n } : State).x r = s.x r := rfl

/-! ## The end of an instruction -/

@[simp] theorem State.goto_params (s : State) (t : Word) : (s.goto t).params = s.params := rfl
@[simp] theorem State.goto_x (s : State) (t : Word) (r : Reg) : (s.goto t).x r = s.x r := rfl
@[simp] theorem State.goto_hi (s : State) (t : Word) : (s.goto t).hi = s.hi := rfl
@[simp] theorem State.goto_lo (s : State) (t : Word) : (s.goto t).lo = s.lo := rfl
@[simp] theorem State.goto_pc (s : State) (t : Word) : (s.goto t).pc = t := rfl
@[simp] theorem State.goto_mem (s : State) (t : Word) : (s.goto t).mem = s.mem := rfl
@[simp] theorem State.goto_byte (s : State) (t a : Word) : (s.goto t).byte a = s.byte a := rfl
@[simp] theorem State.goto_hiGuard (s : State) (t : Word) : (s.goto t).hiGuard = s.hiGuard - 1 := rfl
@[simp] theorem State.goto_loGuard (s : State) (t : Word) : (s.goto t).loGuard = s.loGuard - 1 := rfl
@[simp] theorem State.goto_dirty (s : State) (t : Word) : (s.goto t).dirty = s.dirty := rfl
@[simp] theorem State.goto_fault (s : State) (t : Word) : (s.goto t).fault = s.fault := rfl
@[simp] theorem State.goto_draws (s : State) (t : Word) : (s.goto t).draws = s.draws := rfl

@[simp] theorem State.advance_params (s : State) : s.advance.params = s.params := rfl
@[simp] theorem State.advance_x (s : State) (r : Reg) : s.advance.x r = s.x r := rfl
@[simp] theorem State.advance_hi (s : State) : s.advance.hi = s.hi := rfl
@[simp] theorem State.advance_lo (s : State) : s.advance.lo = s.lo := rfl
@[simp] theorem State.advance_pc (s : State) : s.advance.pc = s.pc + 4 := rfl
@[simp] theorem State.advance_mem (s : State) : s.advance.mem = s.mem := rfl
@[simp] theorem State.advance_byte (s : State) (a : Word) : s.advance.byte a = s.byte a := rfl
@[simp] theorem State.advance_hiGuard (s : State) : s.advance.hiGuard = s.hiGuard - 1 := rfl
@[simp] theorem State.advance_loGuard (s : State) : s.advance.loGuard = s.loGuard - 1 := rfl
@[simp] theorem State.advance_dirty (s : State) : s.advance.dirty = s.dirty := rfl
@[simp] theorem State.advance_fault (s : State) : s.advance.fault = s.fault := rfl
@[simp] theorem State.advance_draws (s : State) : s.advance.draws = s.draws := rfl

@[simp] theorem State.startHiGuard_params (s : State) : s.startHiGuard.params = s.params := rfl
@[simp] theorem State.startHiGuard_x (s : State) (r : Reg) : s.startHiGuard.x r = s.x r := rfl
@[simp] theorem State.startHiGuard_hi (s : State) : s.startHiGuard.hi = s.hi := rfl
@[simp] theorem State.startHiGuard_lo (s : State) : s.startHiGuard.lo = s.lo := rfl
@[simp] theorem State.startHiGuard_pc (s : State) : s.startHiGuard.pc = s.pc := rfl
@[simp] theorem State.startHiGuard_mem (s : State) : s.startHiGuard.mem = s.mem := rfl
@[simp] theorem State.startHiGuard_byte (s : State) (a : Word) : s.startHiGuard.byte a = s.byte a := rfl
@[simp] theorem State.startHiGuard_hiGuard (s : State) : s.startHiGuard.hiGuard = 2 := rfl
@[simp] theorem State.startHiGuard_loGuard (s : State) : s.startHiGuard.loGuard = s.loGuard := rfl
@[simp] theorem State.startHiGuard_dirty (s : State) : s.startHiGuard.dirty = s.dirty := rfl
@[simp] theorem State.startHiGuard_fault (s : State) : s.startHiGuard.fault = s.fault := rfl
@[simp] theorem State.startHiGuard_draws (s : State) : s.startHiGuard.draws = s.draws := rfl

@[simp] theorem State.startLoGuard_params (s : State) : s.startLoGuard.params = s.params := rfl
@[simp] theorem State.startLoGuard_x (s : State) (r : Reg) : s.startLoGuard.x r = s.x r := rfl
@[simp] theorem State.startLoGuard_hi (s : State) : s.startLoGuard.hi = s.hi := rfl
@[simp] theorem State.startLoGuard_lo (s : State) : s.startLoGuard.lo = s.lo := rfl
@[simp] theorem State.startLoGuard_pc (s : State) : s.startLoGuard.pc = s.pc := rfl
@[simp] theorem State.startLoGuard_mem (s : State) : s.startLoGuard.mem = s.mem := rfl
@[simp] theorem State.startLoGuard_byte (s : State) (a : Word) : s.startLoGuard.byte a = s.byte a := rfl
@[simp] theorem State.startLoGuard_hiGuard (s : State) : s.startLoGuard.hiGuard = s.hiGuard := rfl
@[simp] theorem State.startLoGuard_loGuard (s : State) : s.startLoGuard.loGuard = 2 := rfl
@[simp] theorem State.startLoGuard_dirty (s : State) : s.startLoGuard.dirty = s.dirty := rfl
@[simp] theorem State.startLoGuard_fault (s : State) : s.startLoGuard.fault = s.fault := rfl
@[simp] theorem State.startLoGuard_draws (s : State) : s.startLoGuard.draws = s.draws := rfl

/-! ## One byte written -/

@[simp] theorem State.putByte_params (s : State) (a : Word) (b : Byte) : (s.putByte a b).params = s.params := rfl
@[simp] theorem State.putByte_x (s : State) (a : Word) (b : Byte) (r : Reg) : (s.putByte a b).x r = s.x r := rfl
@[simp] theorem State.putByte_hi (s : State) (a : Word) (b : Byte) : (s.putByte a b).hi = s.hi := rfl
@[simp] theorem State.putByte_lo (s : State) (a : Word) (b : Byte) : (s.putByte a b).lo = s.lo := rfl
@[simp] theorem State.putByte_pc (s : State) (a : Word) (b : Byte) : (s.putByte a b).pc = s.pc := rfl
@[simp] theorem State.putByte_mem (s : State) (a : Word) (b : Byte) :
    (s.putByte a b).mem = Memory.write s.mem a.toNat b := rfl
@[simp] theorem State.putByte_hiGuard (s : State) (a : Word) (b : Byte) : (s.putByte a b).hiGuard = s.hiGuard := rfl
@[simp] theorem State.putByte_loGuard (s : State) (a : Word) (b : Byte) : (s.putByte a b).loGuard = s.loGuard := rfl
@[simp] theorem State.putByte_dirty (s : State) (a : Word) (b : Byte) :
    (s.putByte a b).dirty = insertRising (wordBase a).toNat s.dirty := rfl
@[simp] theorem State.putByte_fault (s : State) (a : Word) (b : Byte) : (s.putByte a b).fault = s.fault := rfl
@[simp] theorem State.putByte_draws (s : State) (a : Word) (b : Byte) : (s.putByte a b).draws = s.draws := rfl

/-! ## The fault record -/

theorem State.enterFault_of_none (s : State) (f : Fault) (h : s.fault = none) :
    s.enterFault f = { s with fault := some { reason := f, pc := s.pc } } := by
  simp [State.enterFault, h]

theorem State.enterFault_of_some (s : State) (f : Fault) (r : FaultRecord) (h : s.fault = some r) :
    s.enterFault f = s := by
  simp [State.enterFault, h]

end Sys2Proof.Machine
end

