-- ==== Sys2Proof/Laws/DelaySlot.lean ====
section
/-! SUPPORT. What the variant with a delay slot (R189) does, in terms of `exec`; and what its link leaves alone. -/

namespace Sys2Proof.Machine

theorem hasDelaySlot_eq_isTransfer (i : Instr) : hasDelaySlot i = isTransfer i := by cases i <;> rfl

/-! ## The link -/

/-- The link writes a register, or nothing. -/
theorem delayLink_eq (i : Instr) (pc : Word) (t : State) :
    delayLink i pc t = t.setX ra (pc + 8) ∨ delayLink i pc t = t := by
  unfold delayLink; split <;> simp

@[simp] theorem delayLink_params (i : Instr) (pc : Word) (t : State) : (delayLink i pc t).params = t.params := by
  rcases delayLink_eq i pc t with h | h <;> simp [h]
@[simp] theorem delayLink_hi (i : Instr) (pc : Word) (t : State) : (delayLink i pc t).hi = t.hi := by
  rcases delayLink_eq i pc t with h | h <;> simp [h]
@[simp] theorem delayLink_lo (i : Instr) (pc : Word) (t : State) : (delayLink i pc t).lo = t.lo := by
  rcases delayLink_eq i pc t with h | h <;> simp [h]
@[simp] theorem delayLink_mem (i : Instr) (pc : Word) (t : State) : (delayLink i pc t).mem = t.mem := by
  rcases delayLink_eq i pc t with h | h <;> simp [h]
@[simp] theorem delayLink_hiGuard (i : Instr) (pc : Word) (t : State) : (delayLink i pc t).hiGuard = t.hiGuard := by
  rcases delayLink_eq i pc t with h | h <;> simp [h]
@[simp] theorem delayLink_loGuard (i : Instr) (pc : Word) (t : State) : (delayLink i pc t).loGuard = t.loGuard := by
  rcases delayLink_eq i pc t with h | h <;> simp [h]
@[simp] theorem delayLink_dirty (i : Instr) (pc : Word) (t : State) : (delayLink i pc t).dirty = t.dirty := by
  rcases delayLink_eq i pc t with h | h <;> simp [h]
@[simp] theorem delayLink_fault (i : Instr) (pc : Word) (t : State) : (delayLink i pc t).fault = t.fault := by
  rcases delayLink_eq i pc t with h | h <;> simp [h]
@[simp] theorem delayLink_draws (i : Instr) (pc : Word) (t : State) : (delayLink i pc t).draws = t.draws := by
  rcases delayLink_eq i pc t with h | h <;> simp [h]

/-! ## One instruction -/

/-- All that one instruction of the variant can answer with a next state: it is no branch or jump in a slot, `exec` answers
a next state, and the pair moves on. -/
theorem delayExec_next (i : Instr) (d e : DelayState) :
    delayExec i d = .next e ↔
      (d.inSlot = false ∨ isTransfer i = false) ∧ ∃ t, exec i d.base = .next t ∧ e = delayAfter d i t := by
  unfold delayExec
  rw [hasDelaySlot_eq_isTransfer]
  cases d.inSlot <;> cases isTransfer i <;> cases exec i d.base <;> simp [eq_comm]

end Sys2Proof.Machine
end

