-- ==== Sys2Proof/Laws/Memory.lean ====
section
/-! SUPPORT. The laws of memory and of the dirty list: read after write, the canonical form is kept. -/

namespace Sys2Proof.Machine

/-! ## One byte -/

theorem Memory.read_of_lt (m : Memory) (a : Nat) (h : ∀ c ∈ m, a < c.1) : Memory.read m a = Memory.unlisted := by
  induction m with
  | nil => rfl
  | cons c m ih =>
    obtain ⟨k, v⟩ := c
    have hk : k ≠ a := by have := h (k, v) (by simp); simp at this; omega
    simp only [Memory.read, hk, if_false]
    exact ih fun c hc => h c (by simp [hc])

/-- A write leaves every other address alone, in any memory. -/
theorem Memory.read_write_other (m : Memory) (a a' : Nat) (b : Byte) (h : a' ≠ a) :
    Memory.read (Memory.write m a b) a' = Memory.read m a' := by
  induction m with
  | nil =>
    unfold Memory.write
    split
    · rfl
    · simp [Memory.read, Ne.symm h]
  | cons c m ih =>
    obtain ⟨k, v⟩ := c
    unfold Memory.write
    split
    · split
      · rfl
      · simp [Memory.read, Ne.symm h]
    · split
      · rename_i hak
        subst hak
        split <;> simp [Memory.read, Ne.symm h]
      · simp [Memory.read, ih]

/-- A read after a write to the same address gives the byte written, in canonical memory. -/
theorem Memory.read_write_self (m : Memory) (a : Nat) (b : Byte) (h : Memory.wf m) :
    Memory.read (Memory.write m a b) a = b := by
  induction m with
  | nil =>
    unfold Memory.write
    split
    · rename_i hb; simp [Memory.read, hb]
    · simp [Memory.read]
  | cons c m ih =>
    obtain ⟨k, v⟩ := c
    obtain ⟨hp, hm⟩ := h
    rw [List.pairwise_cons] at hp
    have hwf : Memory.wf m := ⟨hp.2, fun c hc => hm c (by simp [hc])⟩
    unfold Memory.write
    split
    · rename_i hak
      split
      · rename_i hb
        rw [hb]
        refine Memory.read_of_lt _ _ fun c hc => ?_
        rcases List.mem_cons.mp hc with rfl | hc
        · exact hak
        · exact Nat.lt_trans hak (hp.1 c hc)
      · simp [Memory.read]
    · split
      · rename_i hak
        subst hak
        split
        · rename_i hb
          rw [hb]
          exact Memory.read_of_lt _ _ fun c hc => hp.1 c hc
        · simp [Memory.read]
      · rename_i h1 h2
        simp [Memory.read, Ne.symm h2, ih hwf]

theorem Memory.mem_write (m : Memory) (a : Nat) (b : Byte) (c : Host.Cell) (h : c ∈ Memory.write m a b) :
    c ∈ m ∨ (c = (a, b) ∧ b ≠ Memory.unlisted) := by
  induction m with
  | nil =>
    unfold Memory.write at h
    split at h
    · simp at h
    · rename_i hb; exact .inr ⟨by simpa using h, hb⟩
  | cons d m ih =>
    obtain ⟨k, v⟩ := d
    unfold Memory.write at h
    split at h
    · split at h
      · exact .inl h
      · rename_i hb
        rcases List.mem_cons.mp h with h | h
        · exact .inr ⟨h, hb⟩
        · exact .inl h
    · split at h
      · split at h
        · exact .inl (List.mem_cons_of_mem _ h)
        · rename_i hb
          rcases List.mem_cons.mp h with h | h
          · exact .inr ⟨h, hb⟩
          · exact .inl (List.mem_cons_of_mem _ h)
      · rcases List.mem_cons.mp h with h | h
        · exact .inl (by simp [h])
        · rcases ih h with h | h
          · exact .inl (List.mem_cons_of_mem _ h)
          · exact .inr h

/-- Every write keeps the canonical form. -/
theorem Memory.write_wf (m : Memory) (a : Nat) (b : Byte) (ha : a < 2 ^ 32) (h : Memory.wf m) :
    Memory.wf (Memory.write m a b) := by
  refine ⟨?_, fun c hc => ?_⟩
  · induction m with
    | nil => unfold Memory.write; split <;> simp
    | cons d m ih =>
      obtain ⟨k, v⟩ := d
      obtain ⟨hp, hm⟩ := h
      have hp' := hp
      rw [List.pairwise_cons] at hp
      unfold Memory.write
      split
      · rename_i hak
        split
        · exact hp'
        · rw [List.pairwise_cons]
          refine ⟨fun c hc => ?_, hp'⟩
          rcases List.mem_cons.mp hc with rfl | hc
          · exact hak
          · exact Nat.lt_trans hak (hp.1 c hc)
      · split
        · rename_i hak
          subst hak
          split
          · exact hp.2
          · exact List.pairwise_cons.mpr ⟨fun c hc => hp.1 c hc, hp.2⟩
        · rename_i h1 h2
          rw [List.pairwise_cons]
          refine ⟨fun c hc => ?_, ih ⟨hp.2, fun c hc => hm c (by simp [hc])⟩⟩
          rcases Memory.mem_write _ _ _ _ hc with hc | ⟨rfl, _⟩
          · exact hp.1 c hc
          · simp only; omega
  · rcases Memory.mem_write _ _ _ _ hc with hc | ⟨rfl, hb⟩
    · exact h.2 c hc
    · exact ⟨ha, hb⟩

/-! ## The dirty list -/

@[simp] theorem mem_insertRising (a d : Nat) (l : List Nat) : d ∈ insertRising a l ↔ d = a ∨ d ∈ l := by
  induction l with
  | nil => simp [insertRising]
  | cons k l ih =>
    unfold insertRising
    split
    · simp
    · split
      · rename_i hk; subst hk; simp
      · simp [ih]; tauto

theorem insertRising_pairwise (a : Nat) (l : List Nat) (h : l.Pairwise (· < ·)) :
    (insertRising a l).Pairwise (· < ·) := by
  induction l with
  | nil => simp [insertRising]
  | cons k l ih =>
    have h' := h
    rw [List.pairwise_cons] at h
    unfold insertRising
    split
    · rename_i hak
      exact List.pairwise_cons.mpr ⟨fun c hc => by
        rcases List.mem_cons.mp hc with rfl | hc
        · exact hak
        · exact Nat.lt_trans hak (h.1 c hc), h'⟩
    · split
      · exact h'
      · rw [List.pairwise_cons]
        refine ⟨fun c hc => ?_, ih h.2⟩
        rcases (mem_insertRising _ _ _).mp hc with rfl | hc
        · omega
        · exact h.1 c hc

theorem wordBase_toNat (a : Word) : (wordBase a).toNat = a.toNat / 4 * 4 := by
  have ha := a.isLt
  simp only [wordBase, BitVec.toNat_append, BitVec.extractLsb'_toNat, BitVec.toNat_ofNat]
  simp only [Nat.shiftRight_eq_div_pow, Nat.shiftLeft_eq, Nat.zero_mod, Nat.or_zero]
  omega

/-! ## The bytes of a store -/

theorem State.putByte_byte_self (s : State) (a : Word) (b : Byte) (h : Memory.wf s.mem) :
    (s.putByte a b).byte a = b := Memory.read_write_self _ _ _ h

theorem State.putByte_byte_other (s : State) (a a' : Word) (b : Byte) (h : a' ≠ a) :
    (s.putByte a b).byte a' = s.byte a' :=
  Memory.read_write_other _ _ _ _ fun e => h (BitVec.eq_of_toNat_eq e)

theorem State.putByte_wf (s : State) (a : Word) (b : Byte) (h : Memory.wf s.mem) : Memory.wf (s.putByte a b).mem :=
  Memory.write_wf _ _ _ a.isLt h

@[simp] theorem State.putBytes_nil (s : State) : s.putBytes [] = s := rfl
@[simp] theorem State.putBytes_cons (s : State) (w : Word × Byte) (ws : List (Word × Byte)) :
    s.putBytes (w :: ws) = (s.putByte w.1 w.2).putBytes ws := rfl

/-- All that the writes of a store leave alone. -/
theorem State.putBytes_frame (s : State) (ws : List (Word × Byte)) :
    (s.putBytes ws).params = s.params ∧ (s.putBytes ws).gpr = s.gpr ∧ (s.putBytes ws).hi = s.hi ∧
      (s.putBytes ws).lo = s.lo ∧ (s.putBytes ws).pc = s.pc ∧ (s.putBytes ws).hiGuard = s.hiGuard ∧
      (s.putBytes ws).loGuard = s.loGuard ∧ (s.putBytes ws).fault = s.fault ∧ (s.putBytes ws).draws = s.draws := by
  induction ws generalizing s with
  | nil => simp
  | cons w ws ih => rw [State.putBytes_cons]; exact ih _

@[simp] theorem State.putBytes_x (s : State) (ws : List (Word × Byte)) (r : Reg) : (s.putBytes ws).x r = s.x r := by
  simp [State.x, (s.putBytes_frame ws).2.1]

/-- A byte that a store does not write reads as before. -/
theorem State.putBytes_byte_other (s : State) (ws : List (Word × Byte)) (a : Word) (h : a ∉ ws.map Prod.fst) :
    (s.putBytes ws).byte a = s.byte a := by
  induction ws generalizing s with
  | nil => rfl
  | cons w ws ih =>
    simp only [List.map_cons, List.mem_cons, not_or] at h
    rw [State.putBytes_cons, ih _ h.2, State.putByte_byte_other _ _ _ _ h.1]

theorem State.putBytes_wf (s : State) (ws : List (Word × Byte)) (h : Memory.wf s.mem) :
    Memory.wf (s.putBytes ws).mem := by
  induction ws generalizing s with
  | nil => exact h
  | cons w ws ih => rw [State.putBytes_cons]; exact ih _ (s.putByte_wf _ _ h)

/-- A byte that a store writes reads back, when the addresses differ and memory is canonical. -/
theorem State.putBytes_byte_self (s : State) (ws : List (Word × Byte)) (h : Memory.wf s.mem)
    (hd : (ws.map Prod.fst).Nodup) (w : Word × Byte) (hw : w ∈ ws) : (s.putBytes ws).byte w.1 = w.2 := by
  induction ws generalizing s with
  | nil => simp at hw
  | cons v ws ih =>
    rw [List.map_cons, List.nodup_cons] at hd
    rw [State.putBytes_cons]
    rcases List.mem_cons.mp hw with rfl | hw
    · rw [State.putBytes_byte_other _ _ _ hd.1, State.putByte_byte_self _ _ _ h]
    · exact ih _ (s.putByte_wf _ _ h) hd.2 hw

/-- The words a store makes dirty. -/
theorem State.mem_putBytes_dirty (s : State) (ws : List (Word × Byte)) (d : Nat) :
    d ∈ (s.putBytes ws).dirty ↔ d ∈ s.dirty ∨ ∃ w ∈ ws, d = (wordBase w.1).toNat := by
  induction ws generalizing s with
  | nil => simp
  | cons w ws ih => rw [State.putBytes_cons, ih]; simp; tauto

theorem State.putBytes_dirty_pairwise (s : State) (ws : List (Word × Byte)) (h : s.dirty.Pairwise (· < ·)) :
    (s.putBytes ws).dirty.Pairwise (· < ·) := by
  induction ws generalizing s with
  | nil => exact h
  | cons w ws ih => rw [State.putBytes_cons]; exact ih _ (insertRising_pairwise _ _ h)

end Sys2Proof.Machine
end

