-- ==== Sys2Proof/Laws/Ops.lean ====
section
/-! SUPPORT. For each shared operation one lemma that says all it can do; later proofs cite these and unfold nothing. -/

namespace Sys2Proof.Machine

/-! ## The writes of a store -/

@[simp] theorem lastWritten_nil (a : Word) (old : Byte) : lastWritten [] a old = old := rfl

theorem lastWritten_cons (w : Word × Byte) (ws : List (Word × Byte)) (a : Word) (old : Byte) :
    lastWritten (w :: ws) a old = lastWritten ws a (if w.1 = a then w.2 else old) := by
  by_cases h : w.1 = a
  · cases hf : ws.filter (fun w => w.1 == a) <;> simp [lastWritten, h, hf, List.getLast?_cons]
  · simp [lastWritten, h]

/-- All that a list of byte writes does to the bytes of memory, in canonical memory. -/
theorem State.putBytes_byte (s : State) (ws : List (Word × Byte)) (a : Word) (h : Memory.wf s.mem) :
    (s.putBytes ws).byte a = lastWritten ws a (s.byte a) := by
  induction ws generalizing s with
  | nil => rfl
  | cons w ws ih =>
    rw [State.putBytes_cons, ih _ (s.putByte_wf _ _ h), lastWritten_cons]
    split
    · rename_i hw; subst hw; rw [State.putByte_byte_self _ _ _ h]
    · rename_i hw; rw [State.putByte_byte_other _ _ _ _ (Ne.symm hw)]

/-! ## The checks -/

/-- An access is let through exactly when it is aligned and every byte it transfers is mapped. -/
theorem State.accessFault_eq_none (s : State) (k : AccessKind) (a : Word) (n : Nat) (bytes : List Word) :
    s.accessFault k a n bytes = none ↔ a.toNat % n = 0 ∧ ∀ b ∈ bytes, s.mapped k b = true := by
  unfold State.accessFault
  split
  · simp_all
  · split <;> simp_all

theorem State.accessFault_misaligned (s : State) (k : AccessKind) (a : Word) (n : Nat) (bytes : List Word)
    (h : a.toNat % n ≠ 0) : s.accessFault k a n bytes = some (.addressError k a) := by
  simp [State.accessFault, h]

theorem State.accessFault_unmapped (s : State) (k : AccessKind) (a b : Word) (n : Nat) (bytes : List Word)
    (h : a.toNat % n = 0) (hb : b ∈ bytes) (hm : s.mapped k b = false) :
    s.accessFault k a n bytes = some (.busError k a) := by
  have : bytes.all (s.mapped k) = false := by
    rw [List.all_eq_false]; exact ⟨b, hb, by simp [hm]⟩
  simp [State.accessFault, h, this]

theorem State.checkHi_eq_none (s : State) : s.checkHi = none ↔ s.hiGuard = 0 := by
  unfold State.checkHi; split <;> simp <;> omega

theorem State.checkLo_eq_none (s : State) : s.checkLo = none ↔ s.loGuard = 0 := by
  unfold State.checkLo; split <;> simp <;> omega

/-! ## A result for a general register -/

theorem State.setX_regWrite (s : State) (r : Reg) (v : Word) : RegWrite s (s.setX r v) r v :=
  ⟨fun h => s.x_setX_self r v h, fun q h => s.x_setX_other r q v h⟩

theorem State.result_effect (s : State) (r : Reg) (v : Word) :
    ∃ t, s.result r v = .next t ∧ ResultEffect s t r v :=
  ⟨_, rfl, s.setX_regWrite r v, by simp [HiLoSame], by simp [MemSame], by simp [GuardsRun], by simp [RestSame],
    by simp⟩

/-- All that `result` can answer. -/
theorem State.result_next (s t : State) (r : Reg) (v : Word) (h : s.result r v = .next t) :
    ResultEffect s t r v ∧ t.mem = s.mem := by
  obtain ⟨u, hu, he⟩ := s.result_effect r v
  simp only [State.result, Host.Outcome.next.injEq] at h hu
  subst h; subst hu
  exact ⟨he, by simp⟩

theorem State.resultUnless_next (s t : State) (o : Bool) (r : Reg) (v : Word) (h : s.resultUnless o r v = .next t) :
    o = false ∧ ResultEffect s t r v ∧ t.mem = s.mem := by
  cases o
  · exact ⟨rfl, s.result_next t r v (by simpa [State.resultUnless] using h)⟩
  · simp [State.resultUnless] at h

theorem State.loadResult_next (s t : State) (a : Word) (n : Nat) (bs : List Word) (r : Reg) (v : Word)
    (h : s.loadResult a n bs r v = .next t) :
    s.accessFault .load a n bs = none ∧ ResultEffect s t r v ∧ t.mem = s.mem := by
  unfold State.loadResult at h
  split at h
  · simp at h
  · exact ⟨‹_›, s.result_next t r v h⟩

theorem State.loadResult_effect (s : State) (a : Word) (n : Nat) (bs : List Word) (r : Reg) (v : Word)
    (ha : a.toNat % n = 0) (hb : ∀ b ∈ bs, s.mapped .load b = true) :
    ∃ t, s.loadResult a n bs r v = .next t ∧ ResultEffect s t r v := by
  rw [State.loadResult, (s.accessFault_eq_none .load a n bs).mpr ⟨ha, hb⟩]
  exact s.result_effect r v

/-! ## A store -/

/-- All that `storeBytes` can answer. -/
theorem State.storeBytes_next (s t : State) (a : Word) (n : Nat) (ws : List (Word × Byte))
    (h : s.storeBytes a n ws = .next t) :
    s.accessFault .store a n (ws.map Prod.fst) = none ∧ t = (s.putBytes ws).advance := by
  unfold State.storeBytes at h
  split at h
  · simp at h
  · exact ⟨‹_›, by simpa using h.symm⟩

theorem State.storeBytes_effect (s : State) (a base : Word) (n : Nat) (ws : List (Word × Byte))
    (ha : a.toNat % n = 0) (hm : ∀ b ∈ ws.map Prod.fst, s.mapped .store b = true) (hwf : Memory.wf s.mem)
    (hd : (ws.map Prod.fst).Nodup) (hne : ws ≠ []) (hbase : ∀ b ∈ ws.map Prod.fst, wordBase b = base) :
    ∃ t, s.storeBytes a n ws = .next t ∧ StoreEffect s t base ws := by
  refine ⟨(s.putBytes ws).advance, ?_, ?_⟩
  · rw [State.storeBytes, (s.accessFault_eq_none .store a n _).mpr ⟨ha, hm⟩]
  · obtain ⟨hp, hg, hhi, hlo, hpc, hhg, hlg, hf, hdr⟩ := s.putBytes_frame ws
    refine ⟨fun w hw => ?_, fun b hb => ?_, fun d => ?_, fun q => ?_, ?_, ?_, ?_, ?_⟩
    · rw [State.advance_byte]; exact s.putBytes_byte_self ws hwf hd w hw
    · rw [State.advance_byte]; exact s.putBytes_byte_other ws b hb
    · rw [State.advance_dirty, s.mem_putBytes_dirty]
      refine or_congr_right ⟨?_, fun e => ?_⟩
      · rintro ⟨w, hw, rfl⟩
        rw [hbase w.1 (List.mem_map_of_mem hw)]
      · obtain ⟨w, hw⟩ := List.exists_mem_of_ne_nil ws hne
        exact ⟨w, hw, by rw [hbase w.1 (List.mem_map_of_mem hw)]; exact e⟩
    · simp
    · simp [HiLoSame, hhi, hlo]
    · simp [GuardsRun, hhg, hlg]
    · simp [RestSame, hp, hf, hdr]
    · simp [hpc]

/-! ## HI and LO -/

theorem State.writeHi_next (s t : State) (v : Word) (h : s.writeHi v = .next t) :
    s.hiGuard = 0 ∧ HiLoEffect s t v s.lo ∧ t.mem = s.mem := by
  unfold State.writeHi at h
  split at h
  · simp at h
  · rename_i hc
    simp only [Host.Outcome.next.injEq] at h
    subst h
    exact ⟨(s.checkHi_eq_none).mp hc, ⟨rfl, rfl, fun _ => rfl, ⟨fun _ => rfl, rfl⟩, ⟨rfl, rfl⟩, ⟨rfl, rfl, rfl⟩, rfl⟩, rfl⟩

theorem State.writeLo_next (s t : State) (v : Word) (h : s.writeLo v = .next t) :
    s.loGuard = 0 ∧ HiLoEffect s t s.hi v ∧ t.mem = s.mem := by
  unfold State.writeLo at h
  split at h
  · simp at h
  · rename_i hc
    simp only [Host.Outcome.next.injEq] at h
    subst h
    exact ⟨(s.checkLo_eq_none).mp hc, ⟨rfl, rfl, fun _ => rfl, ⟨fun _ => rfl, rfl⟩, ⟨rfl, rfl⟩, ⟨rfl, rfl, rfl⟩, rfl⟩, rfl⟩

theorem State.writeHiLo_next (s t : State) (v w : Word) (h : s.writeHiLo v w = .next t) :
    s.hiGuard = 0 ∧ s.loGuard = 0 ∧ HiLoEffect s t v w ∧ t.mem = s.mem := by
  unfold State.writeHiLo at h
  split at h
  · simp at h
  · split at h
    · simp at h
    · rename_i hc _ hc'
      simp only [Host.Outcome.next.injEq] at h
      subst h
      exact ⟨(s.checkHi_eq_none).mp hc, (s.checkLo_eq_none).mp hc',
        ⟨rfl, rfl, fun _ => rfl, ⟨fun _ => rfl, rfl⟩, ⟨rfl, rfl⟩, ⟨rfl, rfl, rfl⟩, rfl⟩, rfl⟩

theorem State.writeHi_effect (s : State) (v : Word) (h : s.hiGuard = 0) :
    ∃ t, s.writeHi v = .next t ∧ HiLoEffect s t v s.lo := by
  have hw : s.writeHi v = .next ({ s with hi := v } : State).advance := by
    rw [State.writeHi, (s.checkHi_eq_none).mpr h]
  exact ⟨_, hw, (s.writeHi_next _ v hw).2.1⟩

theorem State.writeLo_effect (s : State) (v : Word) (h : s.loGuard = 0) :
    ∃ t, s.writeLo v = .next t ∧ HiLoEffect s t s.hi v := by
  have hw : s.writeLo v = .next ({ s with lo := v } : State).advance := by
    rw [State.writeLo, (s.checkLo_eq_none).mpr h]
  exact ⟨_, hw, (s.writeLo_next _ v hw).2.1⟩

theorem State.writeHiLo_effect (s : State) (v w : Word) (h : s.hiGuard = 0) (h' : s.loGuard = 0) :
    ∃ t, s.writeHiLo v w = .next t ∧ HiLoEffect s t v w := by
  have hw : s.writeHiLo v w = .next ({ s with hi := v, lo := w } : State).advance := by
    rw [State.writeHiLo, (s.checkHi_eq_none).mpr h, (s.checkLo_eq_none).mpr h']
  exact ⟨_, hw, (s.writeHiLo_next _ v w hw).2.2.1⟩

theorem State.writeHi_hazard (s : State) (v : Word) (h : s.hiGuard > 0) : s.writeHi v = .fault (.hiLoHazard .hi) := by
  simp [State.writeHi, State.checkHi, h]

theorem State.writeLo_hazard (s : State) (v : Word) (h : s.loGuard > 0) : s.writeLo v = .fault (.hiLoHazard .lo) := by
  simp [State.writeLo, State.checkLo, h]

theorem State.writeHiLo_hazard_hi (s : State) (v w : Word) (h : s.hiGuard > 0) :
    s.writeHiLo v w = .fault (.hiLoHazard .hi) := by
  simp [State.writeHiLo, State.checkHi, h]

theorem State.writeHiLo_hazard_lo (s : State) (v w : Word) (h : s.hiGuard = 0) (h' : s.loGuard > 0) :
    s.writeHiLo v w = .fault (.hiLoHazard .lo) := by
  simp [State.writeHiLo, State.checkHi, State.checkLo, h, h']

/-- All that `writeHiLoAny` can answer: two draws are made, HI and LO hold them, nothing else changes. -/
theorem State.writeHiLoAny_next (s t : State) (h : s.writeHiLoAny = .next t) :
    s.hiGuard = 0 ∧ s.loGuard = 0 ∧ t.draws = s.draws + 2 ∧ t.params = s.params ∧ t.fault = s.fault ∧
      t.mem = s.mem ∧ t.dirty = s.dirty ∧ RegsSame s t ∧ GuardsRun s t ∧ t.pc = s.pc + 4 := by
  unfold State.writeHiLoAny at h
  obtain ⟨h1, h2, ⟨_, _, hr, hm, hg, hs, hpc⟩, hmem⟩ := State.writeHiLo_next _ _ _ _ h
  exact ⟨h1, h2, hs.2.2, hs.1, hs.2.1, hmem, hm.2, hr, hg, hpc⟩

/-- All that `writeQuotient` can answer. -/
theorem State.writeQuotient_eq (s : State) (q r : Word) :
    s.writeQuotient q r = s.writeHiLo q r ∨ s.writeQuotient q r = s.writeHiLo r q := by
  unfold State.writeQuotient; split <;> simp

end Sys2Proof.Machine
end

