-- ==== Sys2Proof/Laws/PerInstr.lean ====
section
/-! SUPPORT. Statements for every instruction, one lemma a constructor. -/

/-- The word that the encoder writes passes every check of R78, R79 and R81. -/
def Sys2Proof.Laws.EncodeWellFormed.Statement (i : Sys2Proof.Instr) : Prop :=
  (Sys2Proof.fieldsOf (Sys2Proof.encode i)).wellFormed = true

namespace Sys2Proof

set_option Elab.async false

/-- Under an opcode that is neither 0 nor 15 no field is unused. -/
theorem wellFormed_of_op (f : Fields) (h : f.opListed = true) (h0 : (f.op == 0) = false) (h15 : (f.op == 15) = false) :
    f.wellFormed = true := by
  have e0 : ¬f.op = 0#6 := by simpa using h0
  have e15 : ¬f.op = 15#6 := by simpa using h15
  simp [Fields.wellFormed, Fields.functListed, Fields.shamtOk, Fields.rsOk, Fields.rtOk, Fields.rdOk, Fields.linkOk,
    h, e0, e15]

theorem Laws.EncodeWellFormed.lb (rt : Reg) (rs : Reg) (imm : Half) : Laws.EncodeWellFormed.Statement (.lb rt rs imm) := by
  rw [Laws.EncodeWellFormed.Statement, encode, fieldsOf_formI]; rfl

theorem Laws.EncodeWellFormed.lh (rt : Reg) (rs : Reg) (imm : Half) : Laws.EncodeWellFormed.Statement (.lh rt rs imm) := by
  rw [Laws.EncodeWellFormed.Statement, encode, fieldsOf_formI]; rfl

theorem Laws.EncodeWellFormed.lwl (rt : Reg) (rs : Reg) (imm : Half) : Laws.EncodeWellFormed.Statement (.lwl rt rs imm) := by
  rw [Laws.EncodeWellFormed.Statement, encode, fieldsOf_formI]; rfl

theorem Laws.EncodeWellFormed.lw (rt : Reg) (rs : Reg) (imm : Half) : Laws.EncodeWellFormed.Statement (.lw rt rs imm) := by
  rw [Laws.EncodeWellFormed.Statement, encode, fieldsOf_formI]; rfl

theorem Laws.EncodeWellFormed.lbu (rt : Reg) (rs : Reg) (imm : Half) : Laws.EncodeWellFormed.Statement (.lbu rt rs imm) := by
  rw [Laws.EncodeWellFormed.Statement, encode, fieldsOf_formI]; rfl

theorem Laws.EncodeWellFormed.lhu (rt : Reg) (rs : Reg) (imm : Half) : Laws.EncodeWellFormed.Statement (.lhu rt rs imm) := by
  rw [Laws.EncodeWellFormed.Statement, encode, fieldsOf_formI]; rfl

theorem Laws.EncodeWellFormed.lwr (rt : Reg) (rs : Reg) (imm : Half) : Laws.EncodeWellFormed.Statement (.lwr rt rs imm) := by
  rw [Laws.EncodeWellFormed.Statement, encode, fieldsOf_formI]; rfl

theorem Laws.EncodeWellFormed.sb (rt : Reg) (rs : Reg) (imm : Half) : Laws.EncodeWellFormed.Statement (.sb rt rs imm) := by
  rw [Laws.EncodeWellFormed.Statement, encode, fieldsOf_formI]; rfl

theorem Laws.EncodeWellFormed.sh (rt : Reg) (rs : Reg) (imm : Half) : Laws.EncodeWellFormed.Statement (.sh rt rs imm) := by
  rw [Laws.EncodeWellFormed.Statement, encode, fieldsOf_formI]; rfl

theorem Laws.EncodeWellFormed.swl (rt : Reg) (rs : Reg) (imm : Half) : Laws.EncodeWellFormed.Statement (.swl rt rs imm) := by
  rw [Laws.EncodeWellFormed.Statement, encode, fieldsOf_formI]; rfl

theorem Laws.EncodeWellFormed.sw (rt : Reg) (rs : Reg) (imm : Half) : Laws.EncodeWellFormed.Statement (.sw rt rs imm) := by
  rw [Laws.EncodeWellFormed.Statement, encode, fieldsOf_formI]; rfl

theorem Laws.EncodeWellFormed.swr (rt : Reg) (rs : Reg) (imm : Half) : Laws.EncodeWellFormed.Statement (.swr rt rs imm) := by
  rw [Laws.EncodeWellFormed.Statement, encode, fieldsOf_formI]; rfl

theorem Laws.EncodeWellFormed.add (rd : Reg) (rs : Reg) (rt : Reg) : Laws.EncodeWellFormed.Statement (.add rd rs rt) := by
  rw [Laws.EncodeWellFormed.Statement, encode, fieldsOf_formR]; rfl

theorem Laws.EncodeWellFormed.addu (rd : Reg) (rs : Reg) (rt : Reg) : Laws.EncodeWellFormed.Statement (.addu rd rs rt) := by
  rw [Laws.EncodeWellFormed.Statement, encode, fieldsOf_formR]; rfl

theorem Laws.EncodeWellFormed.sub (rd : Reg) (rs : Reg) (rt : Reg) : Laws.EncodeWellFormed.Statement (.sub rd rs rt) := by
  rw [Laws.EncodeWellFormed.Statement, encode, fieldsOf_formR]; rfl

theorem Laws.EncodeWellFormed.subu (rd : Reg) (rs : Reg) (rt : Reg) : Laws.EncodeWellFormed.Statement (.subu rd rs rt) := by
  rw [Laws.EncodeWellFormed.Statement, encode, fieldsOf_formR]; rfl

theorem Laws.EncodeWellFormed.addi (rt : Reg) (rs : Reg) (imm : Half) : Laws.EncodeWellFormed.Statement (.addi rt rs imm) := by
  rw [Laws.EncodeWellFormed.Statement, encode, fieldsOf_formI]; rfl

theorem Laws.EncodeWellFormed.addiu (rt : Reg) (rs : Reg) (imm : Half) : Laws.EncodeWellFormed.Statement (.addiu rt rs imm) := by
  rw [Laws.EncodeWellFormed.Statement, encode, fieldsOf_formI]; rfl

theorem Laws.EncodeWellFormed.and (rd : Reg) (rs : Reg) (rt : Reg) : Laws.EncodeWellFormed.Statement (.and rd rs rt) := by
  rw [Laws.EncodeWellFormed.Statement, encode, fieldsOf_formR]; rfl

theorem Laws.EncodeWellFormed.andi (rt : Reg) (rs : Reg) (imm : Half) : Laws.EncodeWellFormed.Statement (.andi rt rs imm) := by
  rw [Laws.EncodeWellFormed.Statement, encode, fieldsOf_formI]; rfl

theorem Laws.EncodeWellFormed.or (rd : Reg) (rs : Reg) (rt : Reg) : Laws.EncodeWellFormed.Statement (.or rd rs rt) := by
  rw [Laws.EncodeWellFormed.Statement, encode, fieldsOf_formR]; rfl

theorem Laws.EncodeWellFormed.ori (rt : Reg) (rs : Reg) (imm : Half) : Laws.EncodeWellFormed.Statement (.ori rt rs imm) := by
  rw [Laws.EncodeWellFormed.Statement, encode, fieldsOf_formI]; rfl

theorem Laws.EncodeWellFormed.xor (rd : Reg) (rs : Reg) (rt : Reg) : Laws.EncodeWellFormed.Statement (.xor rd rs rt) := by
  rw [Laws.EncodeWellFormed.Statement, encode, fieldsOf_formR]; rfl

theorem Laws.EncodeWellFormed.xori (rt : Reg) (rs : Reg) (imm : Half) : Laws.EncodeWellFormed.Statement (.xori rt rs imm) := by
  rw [Laws.EncodeWellFormed.Statement, encode, fieldsOf_formI]; rfl

theorem Laws.EncodeWellFormed.nor (rd : Reg) (rs : Reg) (rt : Reg) : Laws.EncodeWellFormed.Statement (.nor rd rs rt) := by
  rw [Laws.EncodeWellFormed.Statement, encode, fieldsOf_formR]; rfl

theorem Laws.EncodeWellFormed.slt (rd : Reg) (rs : Reg) (rt : Reg) : Laws.EncodeWellFormed.Statement (.slt rd rs rt) := by
  rw [Laws.EncodeWellFormed.Statement, encode, fieldsOf_formR]; rfl

theorem Laws.EncodeWellFormed.sltu (rd : Reg) (rs : Reg) (rt : Reg) : Laws.EncodeWellFormed.Statement (.sltu rd rs rt) := by
  rw [Laws.EncodeWellFormed.Statement, encode, fieldsOf_formR]; rfl

theorem Laws.EncodeWellFormed.slti (rt : Reg) (rs : Reg) (imm : Half) : Laws.EncodeWellFormed.Statement (.slti rt rs imm) := by
  rw [Laws.EncodeWellFormed.Statement, encode, fieldsOf_formI]; rfl

theorem Laws.EncodeWellFormed.sltiu (rt : Reg) (rs : Reg) (imm : Half) : Laws.EncodeWellFormed.Statement (.sltiu rt rs imm) := by
  rw [Laws.EncodeWellFormed.Statement, encode, fieldsOf_formI]; rfl

theorem Laws.EncodeWellFormed.lui (rt : Reg) (imm : Half) : Laws.EncodeWellFormed.Statement (.lui rt imm) := by
  rw [Laws.EncodeWellFormed.Statement, encode, fieldsOf_formI]; rfl

theorem Laws.EncodeWellFormed.sll (rd : Reg) (rt : Reg) (shamt : BitVec 5) : Laws.EncodeWellFormed.Statement (.sll rd rt shamt) := by
  rw [Laws.EncodeWellFormed.Statement, encode, fieldsOf_formR]; rfl

theorem Laws.EncodeWellFormed.srl (rd : Reg) (rt : Reg) (shamt : BitVec 5) : Laws.EncodeWellFormed.Statement (.srl rd rt shamt) := by
  rw [Laws.EncodeWellFormed.Statement, encode, fieldsOf_formR]; rfl

theorem Laws.EncodeWellFormed.sra (rd : Reg) (rt : Reg) (shamt : BitVec 5) : Laws.EncodeWellFormed.Statement (.sra rd rt shamt) := by
  rw [Laws.EncodeWellFormed.Statement, encode, fieldsOf_formR]; rfl

theorem Laws.EncodeWellFormed.sllv (rd : Reg) (rt : Reg) (rs : Reg) : Laws.EncodeWellFormed.Statement (.sllv rd rt rs) := by
  rw [Laws.EncodeWellFormed.Statement, encode, fieldsOf_formR]; rfl

theorem Laws.EncodeWellFormed.srlv (rd : Reg) (rt : Reg) (rs : Reg) : Laws.EncodeWellFormed.Statement (.srlv rd rt rs) := by
  rw [Laws.EncodeWellFormed.Statement, encode, fieldsOf_formR]; rfl

theorem Laws.EncodeWellFormed.srav (rd : Reg) (rt : Reg) (rs : Reg) : Laws.EncodeWellFormed.Statement (.srav rd rt rs) := by
  rw [Laws.EncodeWellFormed.Statement, encode, fieldsOf_formR]; rfl

theorem Laws.EncodeWellFormed.mult (rs : Reg) (rt : Reg) : Laws.EncodeWellFormed.Statement (.mult rs rt) := by
  rw [Laws.EncodeWellFormed.Statement, encode, fieldsOf_formR]; rfl

theorem Laws.EncodeWellFormed.multu (rs : Reg) (rt : Reg) : Laws.EncodeWellFormed.Statement (.multu rs rt) := by
  rw [Laws.EncodeWellFormed.Statement, encode, fieldsOf_formR]; rfl

theorem Laws.EncodeWellFormed.div (rs : Reg) (rt : Reg) : Laws.EncodeWellFormed.Statement (.div rs rt) := by
  rw [Laws.EncodeWellFormed.Statement, encode, fieldsOf_formR]; rfl

theorem Laws.EncodeWellFormed.divu (rs : Reg) (rt : Reg) : Laws.EncodeWellFormed.Statement (.divu rs rt) := by
  rw [Laws.EncodeWellFormed.Statement, encode, fieldsOf_formR]; rfl

theorem Laws.EncodeWellFormed.mfhi (rd : Reg) : Laws.EncodeWellFormed.Statement (.mfhi rd) := by
  rw [Laws.EncodeWellFormed.Statement, encode, fieldsOf_formR]; rfl

theorem Laws.EncodeWellFormed.mthi (rs : Reg) : Laws.EncodeWellFormed.Statement (.mthi rs) := by
  rw [Laws.EncodeWellFormed.Statement, encode, fieldsOf_formR]; rfl

theorem Laws.EncodeWellFormed.mflo (rd : Reg) : Laws.EncodeWellFormed.Statement (.mflo rd) := by
  rw [Laws.EncodeWellFormed.Statement, encode, fieldsOf_formR]; rfl

theorem Laws.EncodeWellFormed.mtlo (rs : Reg) : Laws.EncodeWellFormed.Statement (.mtlo rs) := by
  rw [Laws.EncodeWellFormed.Statement, encode, fieldsOf_formR]; rfl

theorem Laws.EncodeWellFormed.beq (rs : Reg) (rt : Reg) (imm : Half) : Laws.EncodeWellFormed.Statement (.beq rs rt imm) := by
  rw [Laws.EncodeWellFormed.Statement, encode, fieldsOf_formI]; rfl

theorem Laws.EncodeWellFormed.bne (rs : Reg) (rt : Reg) (imm : Half) : Laws.EncodeWellFormed.Statement (.bne rs rt imm) := by
  rw [Laws.EncodeWellFormed.Statement, encode, fieldsOf_formI]; rfl

theorem Laws.EncodeWellFormed.j (target : BitVec 26) : Laws.EncodeWellFormed.Statement (.j target) :=
  wellFormed_of_op _ (by rw [Fields.opListed, encode, fieldsOf_formJ_op]; rfl)
    (by rw [encode, fieldsOf_formJ_op]; rfl) (by rw [encode, fieldsOf_formJ_op]; rfl)

theorem Laws.EncodeWellFormed.jr (rs : Reg) : Laws.EncodeWellFormed.Statement (.jr rs) := by
  rw [Laws.EncodeWellFormed.Statement, encode, fieldsOf_formR]; rfl

theorem Laws.EncodeWellFormed.jal (target : BitVec 26) : Laws.EncodeWellFormed.Statement (.jal target) :=
  wellFormed_of_op _ (by rw [Fields.opListed, encode, fieldsOf_formJ_op]; rfl)
    (by rw [encode, fieldsOf_formJ_op]; rfl) (by rw [encode, fieldsOf_formJ_op]; rfl)

theorem Laws.EncodeWellFormed.jalr (rs : Reg) : Laws.EncodeWellFormed.Statement (.jalr rs) := by
  rw [Laws.EncodeWellFormed.Statement, encode, fieldsOf_formR]; rfl

end Sys2Proof
end

