-- ==== Sys2Proof/Machine/Asm.lean ====
section
/-! DEFINITION. The assembler's view (R22, R24, R83 to R85): register names, who preserves a register, and the operands of
each instruction in the order they are written. It binds software only; the machine never uses it. -/

namespace Sys2Proof.Machine

/-- The name of a register (R22), with the source's numbering of `$fp` and `$sp` (C5). -/
def regName (r : Reg) : String :=
  (["zero", "at", "v0", "v1", "a0", "a1", "a2", "a3"] ++ ["t0", "t1", "t2", "t3", "t4", "t5", "t6", "t7"]
    ++ ["s0", "s1", "s2", "s3", "s4", "s5", "s6", "s7"] ++ ["t8", "t9", "k0", "k1", "gp", "fp", "sp", "ra"])[r.val]!

/-- A called function hands this register back unchanged ("Se preserva", R22, R24). -/
def calleePreserves (r : Reg) : Bool := r == 0 || (16 ≤ r && r ≤ 23) || (28 ≤ r && r ≤ 30)

/-- One written operand (R83, R84, R85). -/
inductive AsmOperand where
  /-- A register, `$name` or `$number`. -/
  | reg (r : Reg)
  /-- A number. -/
  | num (n : Int)
  /-- A memory operand, offset and base: `I($s)`. -/
  | mem (offset : Int) (base : Reg)
deriving DecidableEq, Repr

/-- The written operands of an instruction, in order (R83). A sign-extended immediate is written signed, a zero-extended
one and lui's as 0 to 65535; I of a branch is the raw signed field and A the raw target field (R85). -/
def asmOperands : Instr → List AsmOperand
  | .lb rt rs imm => [.reg rt, .mem imm.toInt rs]
  | .lh rt rs imm => [.reg rt, .mem imm.toInt rs]
  | .lwl rt rs imm => [.reg rt, .mem imm.toInt rs]
  | .lw rt rs imm => [.reg rt, .mem imm.toInt rs]
  | .lbu rt rs imm => [.reg rt, .mem imm.toInt rs]
  | .lhu rt rs imm => [.reg rt, .mem imm.toInt rs]
  | .lwr rt rs imm => [.reg rt, .mem imm.toInt rs]
  | .sb rt rs imm => [.reg rt, .mem imm.toInt rs]
  | .sh rt rs imm => [.reg rt, .mem imm.toInt rs]
  | .swl rt rs imm => [.reg rt, .mem imm.toInt rs]
  | .sw rt rs imm => [.reg rt, .mem imm.toInt rs]
  | .swr rt rs imm => [.reg rt, .mem imm.toInt rs]
  | .add rd rs rt => [.reg rd, .reg rs, .reg rt]
  | .addu rd rs rt => [.reg rd, .reg rs, .reg rt]
  | .sub rd rs rt => [.reg rd, .reg rs, .reg rt]
  | .subu rd rs rt => [.reg rd, .reg rs, .reg rt]
  | .addi rt rs imm => [.reg rt, .reg rs, .num imm.toInt]
  | .addiu rt rs imm => [.reg rt, .reg rs, .num imm.toInt]
  | .and rd rs rt => [.reg rd, .reg rs, .reg rt]
  | .andi rt rs imm => [.reg rt, .reg rs, .num imm.toNat]
  | .or rd rs rt => [.reg rd, .reg rs, .reg rt]
  | .ori rt rs imm => [.reg rt, .reg rs, .num imm.toNat]
  | .xor rd rs rt => [.reg rd, .reg rs, .reg rt]
  | .xori rt rs imm => [.reg rt, .reg rs, .num imm.toNat]
  | .nor rd rs rt => [.reg rd, .reg rs, .reg rt]
  | .slt rd rs rt => [.reg rd, .reg rs, .reg rt]
  | .sltu rd rs rt => [.reg rd, .reg rs, .reg rt]
  | .slti rt rs imm => [.reg rt, .reg rs, .num imm.toInt]
  | .sltiu rt rs imm => [.reg rt, .reg rs, .num imm.toInt]
  | .lui rt imm => [.reg rt, .num imm.toNat]
  | .sll rd rt shamt => [.reg rd, .reg rt, .num shamt.toNat]
  | .srl rd rt shamt => [.reg rd, .reg rt, .num shamt.toNat]
  | .sra rd rt shamt => [.reg rd, .reg rt, .num shamt.toNat]
  | .sllv rd rt rs => [.reg rd, .reg rt, .reg rs]
  | .srlv rd rt rs => [.reg rd, .reg rt, .reg rs]
  | .srav rd rt rs => [.reg rd, .reg rt, .reg rs]
  | .mult rs rt => [.reg rs, .reg rt]
  | .multu rs rt => [.reg rs, .reg rt]
  | .div rs rt => [.reg rs, .reg rt]
  | .divu rs rt => [.reg rs, .reg rt]
  | .mfhi rd => [.reg rd]
  | .mthi rs => [.reg rs]
  | .mflo rd => [.reg rd]
  | .mtlo rs => [.reg rs]
  | .beq rs rt imm => [.reg rs, .reg rt, .num imm.toInt]
  | .bne rs rt imm => [.reg rs, .reg rt, .num imm.toInt]
  | .j target => [.num target.toNat]
  | .jr rs => [.reg rs]
  | .jal target => [.num target.toNat]
  | .jalr rs => [.reg rs]

end Sys2Proof.Machine
end

