-- ==== Sys2Proof/Tests/Slice0.lean ====
section
/-! SUPPORT. Tests of the model. Expected values are those of spec/95_test_vectors.md, parts B1 to B10, or of the rule
a test names; the last part shows, for each obligation with hypotheses, values that meet them all. -/

namespace Sys2Proof.Tests

open Sys2Proof Sys2Proof.Machine

set_option Elab.async false

/-! ## Helpers -/

/-- The next state of an outcome, if it is one. -/
def nextOf (o : Out) : Option State :=
  match o with
  | .next t => some t
  | .fault _ => none
  | .refused _ => none

/-- The fault of an outcome, if it is one. -/
def faultOf (o : Out) : Option Fault :=
  match o with
  | .next _ => none
  | .fault f => some f
  | .refused _ => none

theorem exists_next (o : Out) (h : (nextOf o).isSome = true) : ∃ t, o = .next t := by
  cases o with
  | next t => exact ⟨t, rfl⟩
  | fault f => simp [nextOf] at h
  | refused r => simp [nextOf] at h

/-- Reset with values in `$t0` and `$t1`. -/
def two (t0 t1 : Word) : State := (State.reset.setX 8 t0).setX 9 t1

/-- One step of a state on the word `w`, placed at its pc. -/
def stepOn (w : Word) (s : State) : Out := step (s.withFetchWord 32 w.toNat)

/-- The register `r` after one step on the word `w`. -/
def regAfter (w : Word) (s : State) (r : Reg) : Option Word := (nextOf (stepOn w s)).map (·.x r)

/-- HI and LO after one step on the word `w`. -/
def hiLoAfter (w : Word) (s : State) : Option (Word × Word) := (nextOf (stepOn w s)).map fun t => (t.hi, t.lo)

/-- The pc and register 31 after one step on the word `w`. -/
def jumpAfter (w : Word) (s : State) : Option (Word × Word) := (nextOf (stepOn w s)).map fun t => (t.pc, t.x 31)

/-- The state with another byte order. -/
def little (s : State) : State := { s with params := { s.params with endian := .little } }

/-- The data of B2 and B4 (the last byte, 0, is not listed). -/
def data : Memory :=
  [(0x10010000, 0xA0), (0x10010001, 0xA1), (0x10010002, 0xA2), (0x10010003, 0xA3), (0x10010004, 0x7F),
    (0x10010005, 0x80), (0x10010006, 0xFF)]

/-- B2's and B4's state: that data, its address in `$t1`, a value in `$t0`. -/
def onData (t0 : Word) : State := { two t0 0x10010000 with mem := data }

/-- The eight bytes at 0x10010000 after one step on the word `w`, as one number, and `dirty`. -/
def dataAfter (w : Word) (s : State) : Option (BitVec 64 × List Nat) :=
  (nextOf (stepOn w s)).map fun t =>
    (joinWord .big (t.byte 0x10010000) (t.byte 0x10010001) (t.byte 0x10010002) (t.byte 0x10010003) ++
      joinWord .big (t.byte 0x10010004) (t.byte 0x10010005) (t.byte 0x10010006) (t.byte 0x10010007), t.dirty)

/-- The fault of one step on the word `w`. -/
def faultAfter (w : Word) (s : State) : Option Fault := faultOf (stepOn w s)

/-- The whole address space mapped but for one run of addresses. -/
def withHole (first last : Word) (s : State) : State :=
  { s with params := { s.params with map :=
    [⟨0, first - 1, true, true, true⟩, ⟨last + 1, 0xFFFFFFFF, true, true, true⟩] } }

/-! ## The checks of WellFormed: one ill-formed word for each (B1's reserved words) -/

theorem test_wellFormed_opListed :
    (fieldsOf 0x42000018).opListed = false ∧ (fieldsOf 0x42000018).wellFormed = false := by decide
theorem test_wellFormed_functListed :
    (fieldsOf 0x0100000A).functListed = false ∧ (fieldsOf 0x0100000A).wellFormed = false := by decide
theorem test_wellFormed_shamtOk :
    (fieldsOf 0x01095060).shamtOk = false ∧ (fieldsOf 0x01095060).wellFormed = false := by decide
theorem test_wellFormed_rsOk :
    (fieldsOf 0x3D081234).rsOk = false ∧ (fieldsOf 0x3D081234).wellFormed = false := by decide
theorem test_wellFormed_rtOk :
    (fieldsOf 0x00085010).rtOk = false ∧ (fieldsOf 0x00085010).wellFormed = false := by decide
theorem test_wellFormed_rdOk :
    (fieldsOf 0x01000811).rdOk = false ∧ (fieldsOf 0x01000811).wellFormed = false := by decide
theorem test_wellFormed_linkOk :
    (fieldsOf 0x0100F009).linkOk = false ∧ (fieldsOf 0x0100F009).wellFormed = false := by decide

/-- B1: the reserved words are refused by decode, by name. -/
def reservedWords : List Word :=
  [0x0000000C, 0x0000000D, 0x00000001, 0x0109001C, 0x0100000A, 0x42000018, 0x70000000, 0xFFFFFFFF]
    ++ [0x01095060, 0x3D081234, 0x01090818, 0x00085010, 0x01000811, 0x01094809, 0x0100F009]

theorem test_decode_reserved : reservedWords.all (fun w => decode w == .error (.reserved w)) = true := by decide

theorem test_decode_truncated : decodeBytes .big [0x00, 0x00, 0x00] = .error .truncated := by decide

/-! ## Decoding: every constructor's word, from B1 -/

/-- B1, the words of this family with the instruction each stands for. -/
def loadStoreWords : List (Word × Instr) :=
  [(0x81280003, .lb 8 9 3), (0x8528FFFE, .lh 8 9 (-2)), (0x89280001, .lwl 8 9 1), (0x8D280008, .lw 8 9 8),
   (0x91280003, .lbu 8 9 3), (0x95280002, .lhu 8 9 2), (0x99280004, .lwr 8 9 4), (0xA1280000, .sb 8 9 0),
   (0xA5280002, .sh 8 9 2), (0xA9280001, .swl 8 9 1), (0xAD28FFFC, .sw 8 9 (-4)), (0xB9280004, .swr 8 9 4)]

theorem test_decode_loadStore :
    loadStoreWords.all (fun p => decode p.1 == .ok p.2 && encode p.2 == p.1) = true := by decide

/-- B1, the words of this family with the instruction each stands for. -/
def aluWords : List (Word × Instr) :=
  [(0x01095020, .add 10 8 9), (0x01095021, .addu 10 8 9), (0x01095022, .sub 10 8 9), (0x01095023, .subu 10 8 9),
   (0x2128FFFF, .addi 8 9 (-1)), (0x2528FFFF, .addiu 8 9 (-1)), (0x01095024, .and 10 8 9), (0x3128FF00, .andi 8 9 0xFF00),
   (0x01095025, .or 10 8 9), (0x35288000, .ori 8 9 0x8000), (0x01095026, .xor 10 8 9), (0x3928FFFF, .xori 8 9 0xFFFF),
   (0x01095027, .nor 10 8 9), (0x0109502A, .slt 10 8 9), (0x0109502B, .sltu 10 8 9), (0x2928FFFF, .slti 8 9 (-1)),
   (0x2D28FFFF, .sltiu 8 9 (-1)), (0x3C081234, .lui 8 0x1234)]

theorem test_decode_alu :
    aluWords.all (fun p => decode p.1 == .ok p.2 && encode p.2 == p.1) = true := by decide

/-- B1, the words of this family with the instruction each stands for. -/
def shiftWords : List (Word × Instr) :=
  [(0x00095100, .sll 10 9 4), (0x00095102, .srl 10 9 4), (0x00095103, .sra 10 9 4), (0x01095004, .sllv 10 9 8),
   (0x01095006, .srlv 10 9 8), (0x01095007, .srav 10 9 8)]

theorem test_decode_shift :
    shiftWords.all (fun p => decode p.1 == .ok p.2 && encode p.2 == p.1) = true := by decide

/-- B1, the words of this family with the instruction each stands for. -/
def mulDivWords : List (Word × Instr) :=
  [(0x01090018, .mult 8 9), (0x01090019, .multu 8 9), (0x0109001A, .div 8 9), (0x0109001B, .divu 8 9),
   (0x00005010, .mfhi 10), (0x01000011, .mthi 8), (0x00005012, .mflo 10), (0x01000013, .mtlo 8)]

theorem test_decode_mulDiv :
    mulDivWords.all (fun p => decode p.1 == .ok p.2 && encode p.2 == p.1) = true := by decide

/-- B1, the words of this family with the instruction each stands for. -/
def jumpWords : List (Word × Instr) :=
  [(0x11090003, .beq 8 9 3), (0x1500FFFD, .bne 8 0 (-3)), (0x08100003, .j 0x0100003), (0x03E00008, .jr 31),
   (0x0C100006, .jal 0x0100006), (0x0100F809, .jalr 8)]

theorem test_decode_jump :
    jumpWords.all (fun p => decode p.1 == .ok p.2 && encode p.2 == p.1) = true := by decide

theorem test_decode_add : decode 0x01095020 = .ok (.add 10 8 9) := rfl

theorem test_decode_bytes_big : decodeBytes .big [0x8F, 0xC8, 0xFF, 0xFC] = .ok (.lw 8 30 (-4), []) := by decide

theorem test_decode_bytes_little : decodeBytes .little [0xFC, 0xFF, 0xC8, 0x8F] = .ok (.lw 8 30 (-4), []) := by decide

theorem test_decodeTableWord :
    decodeTableWord 32 0x0C100006 = some (.jal 0x0100006) ∧ decodeTableWord 32 0x0000000C = none := by decide

/-! ## Loads (B2, B3) -/

theorem test_lb :
    regAfter 0x81280005 (onData 0x11223344) 8 = some 0xFFFFFF80 ∧
    regAfter 0x81280004 (onData 0x11223344) 8 = some 0x0000007F := by decide

theorem test_lbu :
    regAfter 0x91280005 (onData 0x11223344) 8 = some 0x00000080 ∧
    regAfter 0x91280000 (onData 0x11223344) 8 = some 0x000000A0 := by decide

theorem test_lh :
    regAfter 0x85280004 (onData 0x11223344) 8 = some 0x00007F80 ∧
    regAfter 0x85280004 (little (onData 0x11223344)) 8 = some 0xFFFF807F := by decide

theorem test_lhu :
    regAfter 0x95280006 (onData 0x11223344) 8 = some 0x0000FF00 ∧
    regAfter 0x95280006 (little (onData 0x11223344)) 8 = some 0x000000FF := by decide

theorem test_lw :
    regAfter 0x8D280004 (onData 0x11223344) 8 = some 0x7F80FF00 ∧
    regAfter 0x8D290000 (little (onData 0x11223344)) 9 = some 0xA3A2A1A0 := by decide

theorem test_lwl :
    regAfter 0x89280001 (onData 0x11223344) 8 = some 0xA1A2A344 ∧
    regAfter 0x89280003 (little (onData 0x11223344)) 8 = some 0xA3A2A1A0 ∧
    regAfter 0x89280002 (onData 0x11223344) 8 = some 0xA2A33344 := by decide

theorem test_lwr :
    regAfter 0x99280001 (little (onData 0x11223344)) 8 = some 0x11A3A2A1 ∧
    regAfter 0x99280003 (onData 0x11223344) 8 = some 0xA0A1A2A3 ∧
    regAfter 0x99280003 (little (onData 0x11223344)) 8 = some 0x112233A3 := by decide

/-- B2: the address wraps (R57). -/
theorem test_lw_wraps :
    regAfter 0x8D280008
      { two 0 0xFFFFFFFC with mem := [(4, 0xDE), (5, 0xAD), (6, 0xBE), (7, 0xEF)] } 8 = some 0xDEADBEEF := by decide

/-- B2: alignment is tested before Mapped (R59). -/
theorem test_load_faults :
    faultAfter 0x8D280001 (onData 0) = some (.addressError .load 0x10010001) ∧
    faultAfter 0x8D280000 (withHole 0x10010000 0x10010003 (onData 0)) = some (.busError .load 0x10010000) ∧
    faultAfter 0x8D280002 (withHole 0x10010000 0x10010003 (onData 0)) = some (.addressError .load 0x10010002) ∧
    faultAfter 0x85280003 (onData 0) = some (.addressError .load 0x10010003) := by decide

/-- R113: lwl needs only the bytes it moves. -/
theorem test_lwl_partial_map :
    regAfter 0x89280002 (withHole 0x10010000 0x10010001 (onData 0x11223344)) 8 = some 0xA2A33344 ∧
    faultAfter 0x89280002 (withHole 0x10010003 0x10010003 (onData 0)) = some (.busError .load 0x10010002) := by decide

/-! ## Stores (B4) -/

theorem test_sb :
    dataAfter 0xA1280003 (onData 0x12345678) = some (0xA0A1A2787F80FF00, [0x10010000]) ∧
    dataAfter 0xA1280000 (little (onData 0x12345678)) = some (0x78A1A2A37F80FF00, [0x10010000]) := by decide

theorem test_sh :
    dataAfter 0xA5280002 (onData 0x12345678) = some (0xA0A156787F80FF00, [0x10010000]) ∧
    dataAfter 0xA5280000 (little (onData 0x12345678)) = some (0x7856A2A37F80FF00, [0x10010000]) := by decide

theorem test_sw :
    dataAfter 0xAD280000 (little (onData 0x12345678)) = some (0x785634127F80FF00, [0x10010000]) ∧
    dataAfter 0xAD200004 (onData 0x12345678) = some (0xA0A1A2A300000000, [0x10010004]) := by decide

theorem test_swl :
    dataAfter 0xA9280001 (onData 0x11223344) = some (0xA01122337F80FF00, [0x10010000]) ∧
    dataAfter 0xA9280004 (little (onData 0x11223344)) = some (0xA0A1A2A31180FF00, [0x10010004]) := by decide

theorem test_swr :
    dataAfter 0xB9280005 (onData 0x11223344) = some (0xA0A1A2A33344FF00, [0x10010004]) ∧
    dataAfter 0xB9280003 (little (onData 0x11223344)) = some (0xA0A1A2447F80FF00, [0x10010000]) := by decide

theorem test_store_faults :
    faultAfter 0xA5280001 (onData 0) = some (.addressError .store 0x10010001) ∧
    faultAfter 0xAD280002 (onData 0) = some (.addressError .store 0x10010002) ∧
    faultAfter 0xAD280000 (withHole 0x10010003 0x10010003 (onData 1)) = some (.busError .store 0x10010000) := by decide

/-! ## Arithmetic and logic (B5) -/

theorem test_add :
    regAfter 0x01095020 (two 0x00000005 0xFFFFFFFD) 10 = some 0x00000002 ∧
    regAfter 0x01095020 (two 0x7FFFFFFF 0x80000000) 10 = some 0xFFFFFFFF := by decide

theorem test_addu :
    regAfter 0x01095021 (two 0x7FFFFFFF 0x00000001) 10 = some 0x80000000 ∧
    regAfter 0x01095021 (two 0xFFFFFFFF 0x00000001) 10 = some 0x00000000 := by decide

theorem test_sub :
    regAfter 0x01095022 (two 0x00000003 0x00000005) 10 = some 0xFFFFFFFE ∧
    regAfter 0x01095022 (two 0x80000000 0x80000000) 10 = some 0x00000000 := by decide

theorem test_subu :
    regAfter 0x01095023 (two 0x00000000 0x00000001) 10 = some 0xFFFFFFFF ∧
    regAfter 0x01095023 (two 0x80000000 0x00000001) 10 = some 0x7FFFFFFF := by decide

theorem test_addi :
    regAfter 0x21288000 (two 0x00000000 0x80008000) 8 = some 0x80000000 := by decide

theorem test_addiu :
    regAfter 0x2528FFFF (two 0x00000000 0x00000000) 8 = some 0xFFFFFFFF ∧
    regAfter 0x2528FFFF (two 0x00000000 0x80000000) 8 = some 0x7FFFFFFF := by decide

theorem test_overflow :
    faultAfter 0x01095020 (two 0x7FFFFFFF 1) = some .integerOverflow ∧
    faultAfter 0x01090020 (two 0x7FFFFFFF 1) = some .integerOverflow ∧
    faultAfter 0x00095022 (two 0 0x80000000) = some .integerOverflow ∧
    faultAfter 0x01095022 (two 0x7FFFFFFF 0xFFFFFFFF) = some .integerOverflow ∧
    faultAfter 0x21287FFF (two 0 0x7FFF8001) = some .integerOverflow := by decide

theorem test_and :
    regAfter 0x01095024 (two 0xFF00FF00 0x0FF00FF0) 10 = some 0x0F000F00 := by decide

theorem test_andi :
    regAfter 0x3128FFFF (two 0x00000000 0xFFFFFFFF) 8 = some 0x0000FFFF := by decide

theorem test_or :
    regAfter 0x01095025 (two 0xFF00FF00 0x0FF00FF0) 10 = some 0xFFF0FFF0 := by decide

theorem test_ori :
    regAfter 0x35288000 (two 0x00000000 0x12340000) 8 = some 0x12348000 := by decide

theorem test_xor :
    regAfter 0x01095026 (two 0xFF00FF00 0x0FF00FF0) 10 = some 0xF0F0F0F0 := by decide

theorem test_xori :
    regAfter 0x3928FFFF (two 0x00000000 0x12345678) 8 = some 0x1234A987 := by decide

theorem test_nor :
    regAfter 0x01095027 (two 0xFF00FF00 0x0FF00FF0) 10 = some 0x000F000F := by decide

theorem test_slt :
    regAfter 0x0109502A (two 0xFFFFFFFF 0x00000001) 10 = some 0x00000001 ∧
    regAfter 0x0109502A (two 0x00000001 0xFFFFFFFF) 10 = some 0x00000000 := by decide

theorem test_sltu :
    regAfter 0x0109502B (two 0xFFFFFFFF 0x00000001) 10 = some 0x00000000 ∧
    regAfter 0x0109502B (two 0x00000001 0xFFFFFFFF) 10 = some 0x00000001 := by decide

theorem test_slti :
    regAfter 0x2928FFFF (two 0x00000000 0xFFFFFFFE) 8 = some 0x00000001 ∧
    regAfter 0x2928FFFF (two 0x00000000 0x00000000) 8 = some 0x00000000 := by decide

theorem test_sltiu :
    regAfter 0x2D28FFFF (two 0x00000000 0x00010000) 8 = some 0x00000001 ∧
    regAfter 0x2D28FFFF (two 0x00000000 0xFFFFFFFF) 8 = some 0x00000000 := by decide

theorem test_lui :
    regAfter 0x3C08FFFF (two 1 2) 8 = some 0xFFFF0000 ∧
    regAfter 0x3C001234 (two 1 2) 0 = some 0x00000000 := by decide

/-! ## Shifts (B6) -/

theorem test_sll :
    regAfter 0x00095100 (two 0x00000000 0x12345678) 10 = some 0x23456780 := by decide

theorem test_srl :
    regAfter 0x00095102 (two 0x00000000 0x87654321) 10 = some 0x08765432 := by decide

theorem test_sra :
    regAfter 0x00095103 (two 0x00000000 0x87654321) 10 = some 0xF8765432 ∧
    regAfter 0x00095103 (two 0x00000000 0x07654321) 10 = some 0x00765432 := by decide

theorem test_sllv :
    regAfter 0x01095004 (two 0x00000024 0x12345678) 10 = some 0x23456780 ∧
    regAfter 0x01095004 (two 0xFFFFFFFF 0x00000001) 10 = some 0x80000000 := by decide

theorem test_srlv :
    regAfter 0x01095006 (two 0x00000008 0x87654321) 10 = some 0x00876543 ∧
    regAfter 0x01095006 (two 0x00000028 0x87654321) 10 = some 0x00876543 := by decide

theorem test_srav :
    regAfter 0x01095007 (two 0xFFFFFFE8 0x87654321) 10 = some 0xFF876543 ∧
    regAfter 0x01294807 (two 0x00000000 0x80000004) 9 = some 0xF8000000 := by decide

/-! ## Multiplication, division, HI and LO (B7, B8) -/

/-- The state with the other placement of quotient and remainder. -/
def conventional (s : State) : State := { s with params := { s.params with divPlacement := .conventional } }

/-- B8's state. -/
def onHiLo : State := { two 0x12345678 5 with hi := 0xCAFEF00D, lo := 0x0BADBEEF }

theorem test_mult :
    hiLoAfter 0x01090018 (two 0x00000007 0xFFFFFFFD) = some (0xFFFFFFFF, 0xFFFFFFEB) ∧
    hiLoAfter 0x01090018 (two 0x80000000 0x7FFFFFFF) = some (0xC0000000, 0x80000000) := by decide

theorem test_multu :
    hiLoAfter 0x01090019 (two 0x00000007 0xFFFFFFFD) = some (0x00000006, 0xFFFFFFEB) ∧
    hiLoAfter 0x01090019 (two 0xFFFFFFFF 0xFFFFFFFF) = some (0xFFFFFFFE, 0x00000001) := by decide

theorem test_div :
    hiLoAfter 0x0109001A (two 0xFFFFFFF9 0x00000003) = some (0xFFFFFFFE, 0xFFFFFFFF) ∧
    hiLoAfter 0x0109001A (conventional (two 0x00000007 0xFFFFFFFD)) = some (0x00000001, 0xFFFFFFFE) := by decide

theorem test_divu :
    hiLoAfter 0x0109001B (two 0xFFFFFFFF 0x00000010) = some (0x0FFFFFFF, 0x0000000F) ∧
    hiLoAfter 0x0109001B (conventional (two 0x80000000 0xFFFFFFFF)) = some (0x80000000, 0x00000000) := by decide

/-- R163, R164: the open corners go on: two draws, no fault. -/
theorem test_open_division :
    (nextOf (stepOn 0x0109001A (two 0x80000000 0xFFFFFFFF))).map (fun t => (t.draws, t.pc)) = some (2, 0x00400004) ∧
    (nextOf (stepOn 0x0109001B (two 5 0))).map (fun t => (t.draws, t.pc)) = some (2, 0x00400004) := by decide

theorem test_mfhi :
    (nextOf (stepOn 0x00005010 onHiLo)).map (fun t => (t.x 10, t.hiGuard, t.loGuard)) = some (0xCAFEF00D, 2, 0) := by
  decide

theorem test_mflo :
    (nextOf (stepOn 0x00005012 onHiLo)).map (fun t => (t.x 10, t.hiGuard, t.loGuard)) = some (0x0BADBEEF, 0, 2) := by
  decide

theorem test_mthi :
    hiLoAfter 0x01000011 (onHiLo) = some (0x12345678, 0x0BADBEEF) := by decide

theorem test_mtlo :
    hiLoAfter 0x01000013 (onHiLo) = some (0xCAFEF00D, 0x12345678) := by decide

/-- B8, B10: HI is tested first; mthi and mtlo look at their own guard alone. -/
theorem test_hazard :
    faultAfter 0x01090018 { two 6 3 with hiGuard := 1, loGuard := 2 } = some (.hiLoHazard .hi) ∧
    faultAfter 0x0109001B { two 6 3 with loGuard := 1 } = some (.hiLoHazard .lo) ∧
    faultAfter 0x01000011 { two 6 3 with hiGuard := 2 } = some (.hiLoHazard .hi) ∧
    faultAfter 0x01000013 { two 6 3 with hiGuard := 2 } = none ∧
    (nextOf (stepOn 0x00000000 { two 6 3 with hiGuard := 2, loGuard := 1 })).map (fun t => (t.hiGuard, t.loGuard)) =
      some (1, 0) := by decide

/-! ## Branches and jumps (B9) -/

/-- The state with another pc. -/
def fromPc (pc : Word) (s : State) : State := { s with pc := pc }

theorem test_beq :
    jumpAfter 0x11098000 (two 0x00000001 0x00000001) = some (0x003E0004, 0x00000000) ∧
    jumpAfter 0x11090003 (two 0x00000005 0x00000006) = some (0x00400004, 0x00000000) ∧
    jumpAfter 0x11090001 (fromPc 0xFFFFFFFC (two 1 1)) = some (0x00000004, 0x00000000) := by decide

theorem test_bne :
    jumpAfter 0x1500FFFD (fromPc 0x00400010 (two 1 0)) = some (0x00400008, 0x00000000) ∧
    jumpAfter 0x1500FFFD (fromPc 0x00400010 (two 0 0)) = some (0x00400014, 0x00000000) := by decide

theorem test_j :
    jumpAfter 0x08100003 (fromPc 0x9FFFFFFC (two 0 0)) = some (0xA040000C, 0x00000000) := by decide

theorem test_jr :
    jumpAfter 0x01000008 (two 0x00000102 0) = some (0x00000102, 0x00000000) := by decide

theorem test_jal :
    jumpAfter 0x0C100006 (fromPc 0xAFFFFFFC (two 0 0)) = some (0xB0400018, 0xB0000000) := by decide

theorem test_jalr :
    jumpAfter 0x0100F809 (fromPc 0x00400020 (two 0x00400101 0)) = some (0x00400101, 0x00400024) := by decide

theorem test_jalr_ra : faultAfter 0x03E0F809 State.reset = some (.unpredictableOperands 0x03E0F809) := by decide

/-! ## Faults of the step itself, the end of a run (B10) -/

theorem test_fetch_faults :
    faultOf (step (fromPc 0x00400002 State.reset)) = some (.addressError .fetch 0x00400002) ∧
    faultOf (step (withHole 0x00400000 0x004FFFFF (fromPc 0x00400002 State.reset))) =
      some (.addressError .fetch 0x00400002) ∧
    faultOf (step (withHole 0x00500000 0x005FFFFF (fromPc 0x00500000 State.reset))) =
      some (.busError .fetch 0x00500000) ∧
    faultOf (step (withHole 0x00400010 0x0040001F { fromPc 0x00400010 State.reset with dirty := [0x00400010] })) =
      some (.fetchOfModifiedCode 0x00400010) ∧
    faultAfter 0x0000000C State.reset = some (.reservedInstruction 0x0000000C) := by decide

theorem test_fault_recorded :
    settle (fromPc 0x00400002 State.reset) =
      { fromPc 0x00400002 State.reset with
        fault := some { reason := .addressError .fetch 0x00400002, pc := 0x00400002 } } := by decide

theorem test_halt : nextOf (step (fromPc 0xFFFFFFFF State.reset)) = some (fromPc 0xFFFFFFFF State.reset) := by decide

/-- The same instruction runs from reset whichever byte order the host lays it out in. -/
theorem test_place_little : regAfter 0x2408000A (little State.reset) 8 = some 10 := by decide

theorem test_core_is_the_machine : Sys2Proof.core.step = step ∧ Sys2Proof.core.reset = State.reset := ⟨rfl, rfl⟩

/-! ## The assembler's view (R22, R83) and the delay-slot variant (R189) -/

theorem test_regName : (regName 29, regName 30, regName 31, regName 0) = ("fp", "sp", "ra", "zero") := by decide

theorem test_asmOperands : asmOperands (.lw 8 30 (-4)) = [.reg 8, .mem (-4) 30] ∧
    asmOperands (.sllv 10 9 8) = [.reg 10, .reg 9, .reg 8] := by decide

/-- One step of the variant, as its pc, next pc and register 31. -/
def delayAfterStep (d : DelayState) : Option (Word × Word × Word) :=
  match delayStep d with
  | .next e => some (e.base.pc, e.next, e.base.x 31)
  | .fault _ => none
  | .refused _ => none

/-- B9's last sentence: the slot executes first, the link is 4 larger. -/
theorem test_delay_jal :
    delayAfterStep (DelayState.ofReset ((fromPc 0x00400008 State.reset).withFetchWord 32 0x0C100006)) =
      some (0x0040000C, 0x00400018, 0x00400010) := by decide

/-- R189 on B9's beq (taken and not) and jalr, from reset's pc: the slot first, then the target or the next word. -/
theorem test_delay_transfers :
    delayAfterStep (DelayState.ofReset ((two 5 5).withFetchWord 32 0x11090003)) = some (0x00400004, 0x00400010, 0) ∧
    delayAfterStep (DelayState.ofReset ((two 5 6).withFetchWord 32 0x11090003)) = some (0x00400004, 0x00400008, 0) ∧
    delayAfterStep (DelayState.ofReset ((two 0x00400100 0).withFetchWord 32 0x0100F809)) =
      some (0x00400004, 0x00400100, 0x00400008) := by decide

/-- R58: a word write and then a byte write into it, and a later write that a former one does not undo. -/
theorem test_writes_compose :
    ((two 0 0).putBytes (wordWrites .big 8 0x11223344 ++ [(9, 0xAA)])).word 8 = 0x11AA3344 ∧
    lastWritten [(9, 0xAA), (8, 0xBB), (9, 0xCC)] 9 0 = 0xCC ∧ lastWritten [(9, 0xAA)] 8 0x77 = 0x77 := by decide

/-! ## Witnesses: values that meet every hypothesis of an obligation, together -/

theorem witness_EncodeInvertsDecode :
    decode 0x03E0F809 = .ok (.jalr 31) := by rfl

theorem witness_PatternsAreDisjoint :
    ∃ a ∈ rows, (0x00000040 : Word) &&& a.mask = a.pattern := by
  refine ⟨rows[30], List.getElem_mem _, ?_⟩; decide

/-- The state of B10's reserved word. -/
def reservedState : State := State.reset.withFetchWord 32 0x0000000C

theorem witness_ReservedWordStops :
    rows.all (fun r => (0x0000000C : Word) &&& r.mask != r.pattern) = true ∧ reservedState.fault = none ∧
      reservedState.pc ≠ reservedState.params.haltPc ∧ reservedState.fetchWord = .ok 0x0000000C :=
  ⟨by decide, by decide, by decide, by rfl⟩

/-- `add $t2,$t0,$t1` at the last word of the address space. -/
def atTop : State := (fromPc 0xFFFFFFFC (two 5 3)).withFetchWord 32 0x01095020

theorem witness_StepRunsDecodedInstruction :
    atTop.fault = none ∧ atTop.pc ≠ atTop.params.haltPc ∧ atTop.pc.toNat % 4 = 0 ∧
      (wordBase atTop.pc).toNat ∉ atTop.dirty ∧ (∀ b ∈ span atTop.pc 4, atTop.mapped .fetch b = true) ∧
      decode (atTop.word atTop.pc) = .ok (.add 10 8 9) :=
  ⟨by decide, by decide, by decide, by decide, List.all_eq_true.mp (by decide),
    (show atTop.word atTop.pc = 0x01095020 by decide) ▸ test_decode_add⟩

/-- For the third clause: the last byte of the word at the pc is not mapped. -/
def fetchHole : State := withHole 0x00400003 0x00400003 State.reset

theorem witness_FetchFaultOrder :
    (let s := fromPc 0xFFFFFFFE State.reset
     s.fault = none ∧ s.pc ≠ s.params.haltPc ∧ s.pc.toNat % 4 ≠ 0) ∧
    (let s := { State.reset with dirty := [0x00400000] }
     s.fault = none ∧ s.pc ≠ s.params.haltPc ∧ s.pc.toNat % 4 = 0 ∧ s.pc.toNat ∈ s.dirty) ∧
    (fetchHole.fault = none ∧ fetchHole.pc ≠ fetchHole.params.haltPc ∧ fetchHole.pc.toNat % 4 = 0 ∧
      fetchHole.pc.toNat ∉ fetchHole.dirty ∧ fetchHole.mapped .fetch (fetchHole.pc + BitVec.ofNat 32 3) = false) := by
  decide

theorem witness_FaultIsPreciseAndTerminal :
    reservedState.fault = none ∧ step reservedState = .fault (.reservedInstruction 0x0000000C) := ⟨rfl, rfl⟩

theorem witness_EndedRunIsFinal :
    (fromPc 0xFFFFFFFF State.reset).fault = none ∧
      (fromPc 0xFFFFFFFF State.reset).pc = (fromPc 0xFFFFFFFF State.reset).params.haltPc := by decide

theorem witness_BootLeavesResetValues :
    Memory.wf data ∧ wordAligned Params.default.resetPc ∧
      ∀ b ∈ span Params.default.resetPc 4,
        (State.boot Params.default data (Vector.replicate 31 7) 8 9).mapped .fetch b = true :=
  ⟨by decide, by decide, List.all_eq_true.mp (by decide)⟩

theorem witness_EffectiveAddressWraps :
    (two 0 0xFFFFFFFC).x 9 = 0xFFFFFFFC ∧ ((two 0 0xFFFFFFFC).effAddr 9 0).toNat % 4 = 0 ∧
      ((two 0 0xFFFFFFFC).effAddr 9 2).toNat % 2 = 0 := by decide

/-- A store, then code: `sw $t0,0($t1)` at reset's pc, into B4's data. -/
def storing : State := (onData 0x12345678).withFetchWord 32 0xAD280000

theorem witness_StepKeepsInvariant : storing.Inv ∧ ∃ t, step storing = .next t :=
  ⟨by unfold State.Inv; decide, exists_next _ (by decide)⟩

theorem witness_StepKeepsParameters : ∃ t, step storing = .next t := exists_next _ (by decide)

theorem witness_UnmappedByteIsNeverWritten :
    (∃ t, step (withHole 0x10010004 0x10010007 storing) = .next t) ∧
      (withHole 0x10010004 0x10010007 storing).mapped .store 0x10010004 = false :=
  ⟨exists_next _ (by decide), by decide⟩

theorem witness_ChangedByteIsDirty :
    (∃ t, step storing = .next t) ∧ (nextOf (step storing)).map (·.byte 0x10010000) ≠ some (storing.byte 0x10010000) :=
  ⟨exists_next _ (by decide), by decide⟩

/-- `sw $t0,4($t1)` at 0x00400000 that overwrites the instruction after it. -/
def selfModifying : State := (two 0x12345678 0x00400000).withFetchWord 32 0xAD280004

theorem witness_ModifiedCodeIsNeverRun :
    (settleN 1 selfModifying).fault = none ∧ (settleN 1 selfModifying).pc ≠ (settleN 1 selfModifying).params.haltPc ∧
      (settleN 1 selfModifying).pc.toNat % 4 = 0 ∧
      (settleN 1 selfModifying).word (settleN 1 selfModifying).pc ≠ selfModifying.word (settleN 1 selfModifying).pc := by
  decide

/-- Empty memory reads as `sll $zero,$zero,0`; both guards run. -/
def guarded : State := { onHiLo with hiGuard := 1, loGuard := 2 }

theorem witness_RunningGuardKeepsHiLo : (∃ t, step guarded = .next t) ∧ guarded.hiGuard > 0 ∧ guarded.loGuard > 0 :=
  ⟨exists_next _ (by decide), by decide, by decide⟩

theorem witness_MoveGuardsTwoInstructions_mfhi :
    ∃ s s1 s2 s3, step s = .next s1 ∧ step s1 = .next s2 ∧ step s2 = .next s3 ∧ s.runs (.mfhi 10) :=
  ⟨onHiLo.withFetchWord 32 0x00005010, _, _, _, rfl, rfl, rfl, rfl, by decide, rfl⟩

theorem witness_MoveGuardsTwoInstructions_mflo :
    ∃ s s1 s2 s3, step s = .next s1 ∧ step s1 = .next s2 ∧ step s2 = .next s3 ∧ s.runs (.mflo 0) :=
  ⟨onHiLo.withFetchWord 32 0x00000012, _, _, _, rfl, rfl, rfl, rfl, by decide, rfl⟩

theorem witness_OnlyListedInstructionsWriteHiLo :
    ((∃ t, exec (.mtlo 8) onHiLo = .next t) ∧ writesHi (.mtlo 8) = false) ∧
    ((∃ t, exec (.mthi 8) onHiLo = .next t) ∧ writesLo (.mthi 8) = false) :=
  ⟨⟨exists_next _ (by decide), rfl⟩, exists_next _ (by decide), rfl⟩

theorem witness_OnlyTransfersLeaveSequence :
    (∃ t, exec (.addu 10 8 9) (fromPc 0xFFFFFFFC (two 1 2)) = .next t) ∧ isTransfer (.addu 10 8 9) = false :=
  ⟨exists_next _ (by decide), rfl⟩

theorem witness_OnlyJrJalrMisalignPc :
    ∃ t, exec (.jr 8) (two 0x00000102 0) = .next t ∧ wordAligned (two 0x00000102 0).pc ∧ ¬wordAligned t.pc :=
  ⟨_, rfl, by decide, by decide⟩

theorem witness_RegisterFrame : (∃ t, exec (.jal 0) State.reset = .next t) ∧ destOf (.jal 0) ≠ some 1 :=
  ⟨exists_next _ (by decide), by decide⟩

theorem witness_MemoryFrame :
    (∃ t, exec (.swr 8 9 5) (onData 1) = .next t) ∧
      (0x10010006 : Word) ∉ (storesOf (.swr 8 9 5) (onData 1)).map Prod.fst :=
  ⟨exists_next _ (by decide), by decide⟩

theorem witness_GuardCounters :
    (∃ t, exec (.mfhi 10) guarded = .next t) ∧ (∃ t, exec (.mflo 10) guarded = .next t) ∧
    (writesHi (.mthi 8) = true ∧ guarded.hiGuard > 0) ∧
    (writesLo (.mult 8 9) = true ∧ ({ guarded with hiGuard := 0 } : State).loGuard > 0 ∧
      (writesHi (.mult 8 9) = true → ({ guarded with hiGuard := 0 } : State).hiGuard = 0)) :=
  ⟨exists_next _ (by decide), exists_next _ (by decide), by decide, by decide⟩

theorem witness_ByteLoads : (two 0 0xFFFFFFFF).mapped .load ((two 0 0xFFFFFFFF).effAddr 9 0) = true := by decide

theorem witness_HalfLoads :
    ((two 0 0xFFFFFFFE).effAddr 9 0).toNat % 2 = 0 ∧
      (two 0 0xFFFFFFFE).mapped .load ((two 0 0xFFFFFFFE).effAddr 9 0) = true ∧
      (two 0 0xFFFFFFFE).mapped .load ((two 0 0xFFFFFFFE).effAddr 9 0 + 1) = true := by decide

theorem witness_WordLoad :
    ((two 0 0xFFFFFFFC).effAddr 9 0).toNat % 4 = 0 ∧
      ∀ n : Nat, n < 4 → (two 0 0xFFFFFFFC).mapped .load ((two 0 0xFFFFFFFC).effAddr 9 0 + BitVec.ofNat 32 n) = true := by
  decide

/-- At the last byte of the address space with big, at the first with little. -/
theorem witness_PartialLoads :
    (∀ b ∈ (leftLanes .big ((two 0 0xFFFFFFFF).effAddr 9 0)).map Prod.fst, (two 0 0xFFFFFFFF).mapped .load b = true) ∧
    (∀ b ∈ (rightLanes .big ((two 0 0xFFFFFFFF).effAddr 9 0)).map Prod.fst, (two 0 0xFFFFFFFF).mapped .load b = true) ∧
    (∀ b ∈ (leftLanes .little ((little (two 0 0)).effAddr 9 0)).map Prod.fst,
      (little (two 0 0)).mapped .load b = true) ∧
    (∀ b ∈ (rightLanes .little ((little (two 0 0)).effAddr 9 0)).map Prod.fst,
      (little (two 0 0)).mapped .load b = true) :=
  ⟨List.all_eq_true.mp (by decide), List.all_eq_true.mp (by decide), List.all_eq_true.mp (by decide),
    List.all_eq_true.mp (by decide)⟩

/-- The unaligned word at 0x10010001, under either byte order. -/
theorem witness_LoadPairReadsUnalignedWord :
    (8 : Reg) ≠ 0 ∧ (8 : Reg) ≠ 9 ∧ (onData 0).effAddr 9 4 = (onData 0).effAddr 9 1 + 3 ∧
      (∀ n : Nat, n < 4 → (onData 0).mapped .load ((onData 0).effAddr 9 1 + BitVec.ofNat 32 n) = true) ∧
      (∀ n : Nat, n < 4 → (little (onData 0)).mapped .load ((onData 0).effAddr 9 1 + BitVec.ofNat 32 n) = true) := by
  decide

theorem witness_ByteStore :
    Memory.wf (two 1 0xFFFFFFFF).mem ∧ (two 1 0xFFFFFFFF).mapped .store ((two 1 0xFFFFFFFF).effAddr 9 0) = true := by
  decide

theorem witness_HalfStore :
    Memory.wf (two 1 0xFFFFFFFE).mem ∧ ((two 1 0xFFFFFFFE).effAddr 9 0).toNat % 2 = 0 ∧
      (two 1 0xFFFFFFFE).mapped .store ((two 1 0xFFFFFFFE).effAddr 9 0) = true ∧
      (two 1 0xFFFFFFFE).mapped .store ((two 1 0xFFFFFFFE).effAddr 9 0 + 1) = true := by decide

theorem witness_WordStore :
    Memory.wf (two 1 0xFFFFFFFC).mem ∧ ((two 1 0xFFFFFFFC).effAddr 9 0).toNat % 4 = 0 ∧
      ∀ n : Nat, n < 4 → (two 1 0xFFFFFFFC).mapped .store ((two 1 0xFFFFFFFC).effAddr 9 0 + BitVec.ofNat 32 n) = true := by
  decide

theorem witness_PartialStores :
    Memory.wf data ∧
    (∀ b ∈ (leftLanes .big ((onData 1).effAddr 9 3)).map Prod.fst, (onData 1).mapped .store b = true) ∧
    (∀ b ∈ (rightLanes .big ((onData 1).effAddr 9 3)).map Prod.fst, (onData 1).mapped .store b = true) ∧
    (∀ b ∈ (leftLanes .little ((little (onData 1)).effAddr 9 0)).map Prod.fst,
      (little (onData 1)).mapped .store b = true) ∧
    (∀ b ∈ (rightLanes .little ((little (onData 1)).effAddr 9 0)).map Prod.fst,
      (little (onData 1)).mapped .store b = true) :=
  ⟨by decide, List.all_eq_true.mp (by decide), List.all_eq_true.mp (by decide), List.all_eq_true.mp (by decide),
    List.all_eq_true.mp (by decide)⟩

theorem witness_StorePairWritesUnalignedWord :
    Memory.wf (onData 1).mem ∧ (onData 1).effAddr 9 4 = (onData 1).effAddr 9 1 + 3 ∧
      (∀ n : Nat, n < 4 → (onData 1).mapped .store ((onData 1).effAddr 9 1 + BitVec.ofNat 32 n) = true) ∧
      (∀ n : Nat, n < 4 → (little (onData 1)).mapped .store ((onData 1).effAddr 9 1 + BitVec.ofNat 32 n) = true) := by
  decide

theorem witness_LoadReturnsStoredWord :
    ∃ t u, Memory.wf (onData 1).mem ∧ (10 : Reg) ≠ 0 ∧ (onData 1).effAddr 9 4 = (onData 1).effAddr 9 4 ∧
      exec (.sw 8 9 4) (onData 1) = .next t ∧ exec (.lw 10 9 4) t = .next u :=
  ⟨_, _, by decide, by decide, rfl, rfl, rfl⟩

theorem witness_NarrowReadsOfWrittenWord :
    Memory.wf data ∧ (0xFFFFFFFC : Word).toNat % 4 = 0 ∧ (onData 0).params.endian = .big ∧
      (little (onData 0)).params.endian = .little := by decide

theorem witness_MisalignedAccessFaults :
    ((onData 0).effAddr 9 3).toNat % 2 ≠ 0 ∧ ((onData 0).effAddr 9 2).toNat % 4 ≠ 0 := by decide

theorem exists_unmapped (s : State) (k : AccessKind) (l : List Word) (h : l.all (s.mapped k) = false) :
    ∃ b ∈ l, s.mapped k b = false := by
  simpa using h

/-- One byte that is not mapped, at 0x10010003. -/
def oneHole : State := withHole 0x10010003 0x10010003 (onData 0)

/-- That byte meets every clause: as the only byte, as the last of two, as the last of four, in a left part and in a
right part. -/
theorem witness_UnmappedAccessFaults :
    (oneHole.mapped .load (oneHole.effAddr 9 3) = false ∧ oneHole.mapped .store (oneHole.effAddr 9 3) = false) ∧
    ((oneHole.effAddr 9 2).toNat % 2 = 0 ∧ oneHole.mapped .load (oneHole.effAddr 9 2 + 1) = false ∧
      oneHole.mapped .store (oneHole.effAddr 9 2 + 1) = false) ∧
    ((oneHole.effAddr 9 0).toNat % 4 = 0 ∧ oneHole.mapped .load (oneHole.effAddr 9 0 + 3) = false ∧
      oneHole.mapped .store (oneHole.effAddr 9 0 + 3) = false) ∧
    (∃ b ∈ (leftLanes .big (oneHole.effAddr 9 2)).map Prod.fst, oneHole.mapped .load b = false) ∧
    (∃ b ∈ (leftLanes .big (oneHole.effAddr 9 2)).map Prod.fst, oneHole.mapped .store b = false) ∧
    (∃ b ∈ (rightLanes .big (oneHole.effAddr 9 3)).map Prod.fst, oneHole.mapped .load b = false) ∧
    (∃ b ∈ (rightLanes .big (oneHole.effAddr 9 3)).map Prod.fst, oneHole.mapped .store b = false) :=
  ⟨by decide, by decide, by decide, exists_unmapped _ _ _ (by decide), exists_unmapped _ _ _ (by decide),
    exists_unmapped _ _ _ (by decide), exists_unmapped _ _ _ (by decide)⟩

/-- The largest results that fit, one for each clause. -/
theorem witness_SignedResultIsExact :
    ((two 0x7FFFFFFF 0).x 8).toInt + ((two 0x7FFFFFFF 0).x 9).toInt = 2 ^ 31 - 1 ∧
    ((two 0x80000000 0).x 8).toInt - ((two 0x80000000 0).x 9).toInt = -2 ^ 31 ∧
    ((two 0x80000001 0).x 8).toInt + (0xFFFF : Half).toInt = -2 ^ 31 := by decide

/-- The smallest results that do not, one for each clause. -/
theorem witness_SignedOverflowFaults :
    ((two 0x7FFFFFFF 1).x 8).toInt + ((two 0x7FFFFFFF 1).x 9).toInt = 2 ^ 31 ∧
    ((two 0 0x80000000).x 8).toInt - ((two 0 0x80000000).x 9).toInt = 2 ^ 31 ∧
    ((two 0x80000000 0).x 8).toInt + (0xFFFF : Half).toInt = -2 ^ 31 - 1 := by decide

theorem witness_ComparisonResults :
    (((two 0xFFFFFFFF 1).x 8).toInt < ((two 0xFFFFFFFF 1).x 9).toInt ∧
      ¬((two 0xFFFFFFFF 1).x 8).toNat < ((two 0xFFFFFFFF 1).x 9).toNat) ∧
    (((two 0xFFFFFFFE 0).x 8).toInt < (0xFFFF : Half).toInt ∧ ((two 0x00010000 0).x 8).toNat < 0xFFFF + 0xFFFF0000) := by
  decide

theorem witness_ProductsAreExact : (two 1 2).hiGuard = 0 ∧ (two 1 2).loGuard = 0 := by decide

theorem witness_SignedDivision :
    (two 0x80000000 1).hiGuard = 0 ∧ (two 0x80000000 1).loGuard = 0 ∧ ((two 0x80000000 1).x 9).toInt ≠ 0 ∧
      ¬(((two 0x80000000 1).x 8).toInt = -2 ^ 31 ∧ ((two 0x80000000 1).x 9).toInt = -1) := by decide

theorem witness_UnsignedDivision :
    (two 7 3).hiGuard = 0 ∧ (two 7 3).loGuard = 0 ∧ ((two 7 3).x 9).toNat ≠ 0 := by decide

theorem witness_OpenDivisionGoesOn :
    ((two 0x80000000 0xFFFFFFFF).hiGuard = 0 ∧ (two 0x80000000 0xFFFFFFFF).loGuard = 0 ∧
      ((two 0x80000000 0xFFFFFFFF).x 8).toInt = -2 ^ 31 ∧ ((two 0x80000000 0xFFFFFFFF).x 9).toInt = -1) ∧
    ((two 5 0).hiGuard = 0 ∧ (two 5 0).loGuard = 0 ∧ ((two 5 0).x 9).toInt = 0 ∧ (two 5 0).x 9 = 0) := by decide

theorem witness_MovesToHiLo :
    ({ onHiLo with loGuard := 1 } : State).hiGuard = 0 ∧ ({ onHiLo with hiGuard := 1 } : State).loGuard = 0 := by decide

theorem witness_BranchTargets :
    ((two 5 5).x 8 = (two 5 5).x 9) ∧ ((two 5 6).x 8 ≠ (two 5 6).x 9) := by decide

theorem witness_RegisterJumps :
    (two 0x102 0).fault = none ∧ (two 0x102 0).x 8 ≠ (two 0x102 0).params.haltPc ∧ ((two 0x102 0).x 8).toNat % 4 ≠ 0 ∧
      (8 : Reg) ≠ 31 := by decide

theorem witness_ReturnComesBackAfterCall :
    (∃ t, exec (.jal 0x0100006) (two 0 0) = .next t ∧ t.x 31 = t.x 31) ∧
    (∃ t, exec (.jalr 8) (two 0x00400100 0) = .next t ∧ t.x 31 = t.x 31) :=
  ⟨⟨_, rfl, rfl⟩, _, rfl, rfl⟩

/-- The variant's state after reset, with values in `$t0` and `$t1`. -/
def variant (t0 t1 : Word) : DelayState := DelayState.ofReset (two t0 t1)

theorem witness_DelaySlotVariant :
    (variant 0 0).base.runs (.sll 0 0 0) ∧
    (isTransfer (.addiu 8 0 1) = false ∧ ∃ t, exec (.addiu 8 0 1) (variant 0 0).base = .next t) ∧
    step { (variant 0 0).base with pc := 0x00400101 } = .fault (.addressError .fetch 0x00400101) ∧
    ((variant 0 0).inSlot = false ∧ exec (.jalr 31) (variant 0 0).base = .fault (.unpredictableOperands 0x03E0F809)) ∧
    (({ variant 0 0 with inSlot := true } : DelayState).inSlot = true ∧ isTransfer (.beq 0 0 1) = true) ∧
    ((variant 5 5).inSlot = false ∧ (variant 5 5).base.x 8 = (variant 5 5).base.x 9) ∧
    ((variant 5 6).inSlot = false ∧ (variant 5 6).base.x 8 ≠ (variant 5 6).base.x 9 ∧ (8 : Reg) ≠ 31) :=
  ⟨⟨rfl, by decide, rfl⟩, ⟨rfl, exists_next _ (by decide)⟩, rfl, ⟨rfl, rfl⟩, ⟨rfl, rfl⟩, by decide, by decide⟩

end Sys2Proof.Tests
end

section
/-! Proofs for the state (O26): what every instruction does to the guard counters of R32, and what the check of R160
does before a write of HI or LO. -/

namespace Sys2Proof.Machine

/-! ## The guards after each shared operation -/

theorem State.goto_guardsRun (s : State) (target : Word) : GuardsRun s (s.goto target) := ⟨rfl, rfl⟩

theorem State.setX_goto_guardsRun (s : State) (r : Reg) (v target : Word) :
    GuardsRun s ((s.setX r v).goto target) := by
  simp [GuardsRun]

theorem State.result_guardsRun {s t : State} {r : Reg} {v : Word} (h : s.result r v = .next t) : GuardsRun s t := by
  obtain ⟨⟨_, _, _, hguards, _⟩, _⟩ := s.result_next t r v h
  exact hguards

theorem State.resultUnless_guardsRun {s t : State} {overflow : Bool} {r : Reg} {v : Word}
    (h : s.resultUnless overflow r v = .next t) : GuardsRun s t := by
  obtain ⟨_, ⟨_, _, _, hguards, _⟩, _⟩ := s.resultUnless_next t overflow r v h
  exact hguards

theorem State.loadResult_guardsRun {s t : State} {a : Word} {align : Nat} {bytes : List Word} {r : Reg} {v : Word}
    (h : s.loadResult a align bytes r v = .next t) : GuardsRun s t := by
  obtain ⟨_, ⟨_, _, _, hguards, _⟩, _⟩ := s.loadResult_next t a align bytes r v h
  exact hguards

theorem State.storeBytes_guardsRun {s t : State} {a : Word} {align : Nat} {ws : List (Word × Byte)}
    (h : s.storeBytes a align ws = .next t) : GuardsRun s t := by
  obtain ⟨_, rfl⟩ := s.storeBytes_next t a align ws h
  obtain ⟨_, _, _, _, _, hhi, hlo, _⟩ := s.putBytes_frame ws
  simp [GuardsRun, hhi, hlo]

theorem State.writeHi_guardsRun {s t : State} {v : Word} (h : s.writeHi v = .next t) : GuardsRun s t := by
  obtain ⟨_, ⟨_, _, _, _, hguards, _⟩, _⟩ := s.writeHi_next t v h
  exact hguards

theorem State.writeLo_guardsRun {s t : State} {v : Word} (h : s.writeLo v = .next t) : GuardsRun s t := by
  obtain ⟨_, ⟨_, _, _, _, hguards, _⟩, _⟩ := s.writeLo_next t v h
  exact hguards

theorem State.writeHiLo_guardsRun {s t : State} {v w : Word} (h : s.writeHiLo v w = .next t) : GuardsRun s t := by
  obtain ⟨_, _, ⟨_, _, _, _, hguards, _⟩, _⟩ := s.writeHiLo_next t v w h
  exact hguards

/-! ## The instructions that write both HI and LO -/

theorem State.writeQuotient_eq_writeHiLo (s : State) (q r : Word) : ∃ v w, s.writeQuotient q r = s.writeHiLo v w := by
  rcases s.writeQuotient_eq q r with h | h
  · exact ⟨q, r, h⟩
  · exact ⟨r, q, h⟩

/-- Every form of mult, multu, div and divu, the divisions with open values included, ends in one write of the pair;
only the count of draws may have moved before it. -/
theorem exec_eq_writeHiLo {i : Instr} (s : State) (hHi : writesHi i = true) (hLo : writesLo i = true) :
    ∃ n v w, exec i s = ({ s with draws := n } : State).writeHiLo v w := by
  cases i with
  | mult | multu => exact ⟨s.draws, _, _, rfl⟩
  | div rs rt =>
    rw [exec, execDiv]
    split
    · exact ⟨s.draws + 2, _, _, rfl⟩
    · exact ⟨s.draws, s.writeQuotient_eq_writeHiLo _ _⟩
  | divu rs rt =>
    rw [exec, execDivu]
    split
    · exact ⟨s.draws + 2, _, _, rfl⟩
    · exact ⟨s.draws, s.writeQuotient_eq_writeHiLo _ _⟩
  | mthi => exact absurd hLo Bool.false_ne_true
  | _ => exact absurd hHi Bool.false_ne_true

theorem writesLo_or_mthi_of_writesHi {i : Instr} (h : writesHi i = true) :
    writesLo i = true ∨ ∃ rs, i = .mthi rs := by
  cases i with
  | mult | multu | div | divu => exact .inl rfl
  | mthi rs => exact .inr ⟨rs, rfl⟩
  | _ => exact absurd h Bool.false_ne_true

theorem writesHi_or_mtlo_of_writesLo {i : Instr} (h : writesLo i = true) :
    writesHi i = true ∨ ∃ rs, i = .mtlo rs := by
  cases i with
  | mult | multu | div | divu => exact .inl rfl
  | mtlo rs => exact .inr ⟨rs, rfl⟩
  | _ => exact absurd h Bool.false_ne_true

/-! ## The check before a write -/

theorem exec_hiHazard {i : Instr} {s : State} (hHi : writesHi i = true) (hguard : s.hiGuard > 0) :
    exec i s = .fault (.hiLoHazard .hi) := by
  rcases writesLo_or_mthi_of_writesHi hHi with hLo | ⟨rs, rfl⟩
  · obtain ⟨n, v, w, hexec⟩ := exec_eq_writeHiLo s hHi hLo
    rw [hexec]
    exact State.writeHiLo_hazard_hi _ v w hguard
  · exact s.writeHi_hazard (s.x rs) hguard

/-- The guard of HI is tested first, so it must be down where the instruction writes HI too. -/
theorem exec_loHazard {i : Instr} {s : State} (hLo : writesLo i = true) (hguard : s.loGuard > 0)
    (hdown : writesHi i = true → s.hiGuard = 0) : exec i s = .fault (.hiLoHazard .lo) := by
  rcases writesHi_or_mtlo_of_writesLo hLo with hHi | ⟨rs, rfl⟩
  · obtain ⟨n, v, w, hexec⟩ := exec_eq_writeHiLo s hHi hLo
    rw [hexec]
    exact State.writeHiLo_hazard_lo _ v w (hdown hHi) hguard
  · exact s.writeLo_hazard (s.x rs) hguard

/-! ## The update after an instruction -/

theorem exec_mfhi_guards {s t : State} {rd : Reg} (h : exec (.mfhi rd) s = .next t) :
    t.hiGuard = 2 ∧ t.loGuard = s.loGuard - 1 := by
  obtain rfl : (s.setX rd s.hi).advance.startHiGuard = t := Host.Outcome.next.inj h
  simp

theorem exec_mflo_guards {s t : State} {rd : Reg} (h : exec (.mflo rd) s = .next t) :
    t.hiGuard = s.hiGuard - 1 ∧ t.loGuard = 2 := by
  obtain rfl : (s.setX rd s.lo).advance.startLoGuard = t := Host.Outcome.next.inj h
  simp

theorem execJalr_guardsRun {s t : State} {rs : Reg} (h : execJalr rs s = .next t) : GuardsRun s t := by
  unfold execJalr at h
  split at h
  · contradiction
  · obtain rfl := Host.Outcome.next.inj h
    exact s.setX_goto_guardsRun ra _ _

theorem exec_guardsRun_of_writesHiLo {i : Instr} {s t : State} (h : exec i s = .next t) (hHi : writesHi i = true)
    (hLo : writesLo i = true) : GuardsRun s t := by
  obtain ⟨n, v, w, hexec⟩ := exec_eq_writeHiLo s hHi hLo
  exact State.writeHiLo_guardsRun (s := { s with draws := n }) (hexec.symm.trans h)

/-- Only mfhi and mflo start a guard: every other instruction runs both down. -/
theorem exec_guardsRun {i : Instr} {s t : State} (h : exec i s = .next t) (hmfhi : ¬∃ rd, i = .mfhi rd)
    (hmflo : ¬∃ rd, i = .mflo rd) : GuardsRun s t := by
  cases i with
  | lb | lh | lwl | lw | lbu | lhu | lwr => exact State.loadResult_guardsRun h
  | sb | sh | swl | sw | swr => exact State.storeBytes_guardsRun h
  | add | sub | addi => exact State.resultUnless_guardsRun h
  | addu | subu | addiu | and | andi | or | ori | xor | xori | nor | slt | sltu | slti | sltiu | lui
  | sll | srl | sra | sllv | srlv | srav => exact State.result_guardsRun h
  | mult | multu | div | divu => exact exec_guardsRun_of_writesHiLo h rfl rfl
  | mfhi rd => exact absurd ⟨rd, rfl⟩ hmfhi
  | mflo rd => exact absurd ⟨rd, rfl⟩ hmflo
  | mthi => exact State.writeHi_guardsRun h
  | mtlo => exact State.writeLo_guardsRun h
  | beq | bne | j | jr =>
    obtain rfl := Host.Outcome.next.inj h
    exact s.goto_guardsRun _
  | jal =>
    obtain rfl := Host.Outcome.next.inj h
    exact s.setX_goto_guardsRun ra _ _
  | jalr => exact execJalr_guardsRun h

theorem exec_hiGuard_of_not_mfhi {i : Instr} {s t : State} (h : exec i s = .next t) (hmfhi : ¬∃ rd, i = .mfhi rd) :
    t.hiGuard = s.hiGuard - 1 := by
  by_cases hmflo : ∃ rd, i = .mflo rd
  · obtain ⟨rd, rfl⟩ := hmflo
    exact (exec_mflo_guards h).left
  · exact (exec_guardsRun h hmfhi hmflo).left

theorem exec_loGuard_of_not_mflo {i : Instr} {s t : State} (h : exec i s = .next t) (hmflo : ¬∃ rd, i = .mflo rd) :
    t.loGuard = s.loGuard - 1 := by
  by_cases hmfhi : ∃ rd, i = .mfhi rd
  · obtain ⟨rd, rfl⟩ := hmfhi
    exact (exec_mfhi_guards h).right
  · exact (exec_guardsRun h hmfhi hmflo).right

/-- Settles O26: the update by what each shared operation does to the guards, the check by the one write of HI and LO
that every instruction of R26 ends in. -/
theorem guardCounters : Obligations.GuardCounters := by
  unfold Obligations.GuardCounters
  intro i s
  refine ⟨fun t h => ⟨?_, fun hmfhi => ?_, ?_, fun hmflo => ?_⟩, exec_hiHazard, exec_loHazard⟩
  · rintro ⟨rd, rfl⟩
    exact (exec_mfhi_guards h).left
  · rw [exec_hiGuard_of_not_mfhi h hmfhi, Nat.max_zero]
  · rintro ⟨rd, rfl⟩
    exact (exec_mflo_guards h).right
  · rw [exec_loGuard_of_not_mflo h hmflo, Nat.max_zero]

end Sys2Proof.Machine
end

section
/-! Proofs for data memory (O27, O39, O40): where an effective address lies and which bytes an access at it reaches
(R44, R57), what a read sees of the writes before it (R58), and the fault of a misaligned access (R45). -/

namespace Sys2Proof.Machine

/-! ## Misaligned accesses -/

theorem State.loadResult_misaligned (s : State) {a : Word} {align : Nat} (bytes : List Word) (r : Reg) (v : Word)
    (h : a.toNat % align ≠ 0) : s.loadResult a align bytes r v = .fault (.addressError .load a) := by
  rw [State.loadResult, s.accessFault_misaligned .load a align bytes h]

theorem State.storeBytes_misaligned (s : State) {a : Word} {align : Nat} (ws : List (Word × Byte))
    (h : a.toNat % align ≠ 0) : s.storeBytes a align ws = .fault (.addressError .store a) := by
  rw [State.storeBytes, s.accessFault_misaligned .store a align _ h]

/-- Settles O40: alignment is the first check of a load and of a store, so what is mapped plays no part. -/
theorem misalignedAccessFaults : Obligations.MisalignedAccessFaults := by
  unfold Obligations.MisalignedAccessFaults
  intro s rt rs imm
  refine ⟨fun hodd => ⟨?_, ?_, ?_⟩, fun hmis => ⟨?_, ?_⟩⟩
  · exact s.loadResult_misaligned _ rt _ hodd
  · exact s.loadResult_misaligned _ rt _ hodd
  · exact s.storeBytes_misaligned _ hodd
  · exact s.loadResult_misaligned _ rt _ hmis
  · exact s.storeBytes_misaligned _ hmis

/-! ## The effective address -/

theorem sextImm_toInt (imm : Half) : (sextImm imm).toInt = imm.toInt :=
  BitVec.toInt_signExtend_of_le (by decide)

theorem toNat_add_eq_emod (v w : Word) : ((v + w).toNat : Int) = (v.toNat + w.toInt) % 2 ^ 32 := by
  rw [BitVec.toNat_add, BitVec.toInt_eq_toNat_cond]
  split <;> omega

theorem State.effAddr_toNat (s : State) (rs : Reg) (imm : Half) :
    ((s.effAddr rs imm).toNat : Int) = ((s.x rs).toNat + imm.toInt) % 2 ^ 32 := by
  rw [State.effAddr, toNat_add_eq_emod, sextImm_toInt]

theorem State.effAddr_zero (s : State) (imm : Half) : s.effAddr 0 imm = imm.signExtend 32 := by
  rw [State.effAddr, State.x_zero]
  exact BitVec.zero_add _

/-! ## The bytes of an access at an address -/

theorem add_ofNat_sameWord {a : Word} {i : Nat} (h : i < 4 - a.toNat % 4) :
    (a + BitVec.ofNat 32 i).toNat / 4 = a.toNat / 4 := by
  have ha := a.isLt
  rw [BitVec.toNat_add, BitVec.toNat_ofNat]
  omega

theorem sub_ofNat_sameWord {a : Word} {i : Nat} (h : i < a.toNat % 4 + 1) :
    (a - BitVec.ofNat 32 i).toNat / 4 = a.toNat / 4 := by
  have ha := a.isLt
  rw [BitVec.toNat_sub, BitVec.toNat_ofNat]
  omega

theorem leftLanes_sameWord {e : Endian} {a : Word} {p : Word × Nat} (h : p ∈ leftLanes e a) :
    p.1.toNat / 4 = a.toNat / 4 := by
  cases e with
  | big =>
    obtain ⟨i, hi, rfl⟩ := List.mem_map.mp h
    exact add_ofNat_sameWord (List.mem_range.mp hi)
  | little =>
    obtain ⟨i, hi, rfl⟩ := List.mem_map.mp h
    exact sub_ofNat_sameWord (List.mem_range.mp hi)

theorem rightLanes_sameWord {e : Endian} {a : Word} {p : Word × Nat} (h : p ∈ rightLanes e a) :
    p.1.toNat / 4 = a.toNat / 4 := by
  cases e with
  | big =>
    obtain ⟨i, hi, rfl⟩ := List.mem_map.mp h
    exact sub_ofNat_sameWord (List.mem_range.mp hi)
  | little =>
    obtain ⟨i, hi, rfl⟩ := List.mem_map.mp h
    exact add_ofNat_sameWord (List.mem_range.mp hi)

/-- Settles O27: the address by the arithmetic of R57, the bytes by how far they lie from it inside its aligned word. -/
theorem effectiveAddressWraps : Obligations.EffectiveAddressWraps := by
  unfold Obligations.EffectiveAddressWraps
  intro s rs imm
  have hlt := (s.effAddr rs imm).isLt
  refine ⟨s.effAddr_toNat rs imm, s.effAddr_zero imm, fun hbase => ?_, fun heven => ?_, fun haligned => ?_,
    fun e b hb => ?_⟩
  · rw [State.effAddr, hbase]
    decide
  · omega
  · omega
  · obtain ⟨p, hp, rfl⟩ := List.mem_map.mp hb
    rcases List.mem_append.mp hp with hleft | hright
    · exact leftLanes_sameWord hleft
    · exact rightLanes_sameWord hright

/-! ## What a read sees of the writes before it -/

@[simp] theorem State.putBytes_params (s : State) (ws : List (Word × Byte)) : (s.putBytes ws).params = s.params := by
  obtain ⟨hparams, _⟩ := s.putBytes_frame ws
  exact hparams

theorem State.half_add_two (s : State) (a : Word) :
    s.half (a + 2) = joinHalf s.params.endian (s.byte (a + 2)) (s.byte (a + 3)) := by
  rw [State.half, BitVec.add_assoc]
  rfl

theorem State.putBytes_word (s : State) (ws : List (Word × Byte)) (a : Word) (h : Memory.wf s.mem) :
    (s.putBytes ws).word a =
      joinWord s.params.endian (lastWritten ws a (s.byte a)) (lastWritten ws (a + 1) (s.byte (a + 1)))
        (lastWritten ws (a + 2) (s.byte (a + 2))) (lastWritten ws (a + 3) (s.byte (a + 3))) := by
  simp only [State.word, State.putBytes_params, s.putBytes_byte ws _ h]

theorem State.putBytes_half (s : State) (ws : List (Word × Byte)) (a : Word) (h : Memory.wf s.mem) :
    (s.putBytes ws).half a =
      joinHalf s.params.endian (lastWritten ws a (s.byte a)) (lastWritten ws (a + 1) (s.byte (a + 1))) := by
  simp only [State.half, State.putBytes_params, s.putBytes_byte ws _ h]

theorem State.putBytes_half_add_two (s : State) (ws : List (Word × Byte)) (a : Word) (h : Memory.wf s.mem) :
    (s.putBytes ws).half (a + 2) =
      joinHalf s.params.endian (lastWritten ws (a + 2) (s.byte (a + 2))) (lastWritten ws (a + 3) (s.byte (a + 3))) := by
  simp only [State.half_add_two, State.putBytes_params, s.putBytes_byte ws _ h]

/-! ## What a read sees of a word written -/

theorem span_four (a : Word) : span a 4 = [a, a + 1, a + 2, a + 3] := by
  simp [span, List.range_succ]

theorem span_four_nodup (a : Word) : (span a 4).Nodup := by
  simp [span_four]

theorem map_fst_wordWrites (e : Endian) (a v : Word) : (wordWrites e a v).map Prod.fst = span a 4 := by
  cases e <;> rfl

theorem map_snd_wordWrites (e : Endian) (a v : Word) : (wordWrites e a v).map Prod.snd = wordBytes e v := by
  cases e <;> rfl

theorem byteLanes_append (v : Word) : byteLane v 3 ++ byteLane v 2 ++ byteLane v 1 ++ byteLane v 0 = v := by
  simp (disch := omega) only [byteLane, BitVec.extractLsb'_append_extractLsb'_eq_extractLsb']
  exact BitVec.extractLsb'_eq_self

/-- The bytes that R42 cuts a word into at rising addresses join to the word, in either order. -/
theorem joinWord_of_wordBytes {e : Endian} {v : Word} {b0 b1 b2 b3 : Byte} (h : [b0, b1, b2, b3] = wordBytes e v) :
    joinWord e b0 b1 b2 b3 = v := by
  cases e with
  | big | little =>
    simp only [wordBytes, List.cons.injEq, and_true] at h
    obtain ⟨rfl, rfl, rfl, rfl⟩ := h
    exact byteLanes_append v

theorem State.putBytes_wordWrites_bytes (s : State) (e : Endian) (a v : Word) (h : Memory.wf s.mem) :
    let t := s.putBytes (wordWrites e a v)
    [t.byte a, t.byte (a + 1), t.byte (a + 2), t.byte (a + 3)] = wordBytes e v := by
  intro t
  have hnodup : ((wordWrites e a v).map Prod.fst).Nodup := by
    rw [map_fst_wordWrites]
    exact span_four_nodup a
  calc [t.byte a, t.byte (a + 1), t.byte (a + 2), t.byte (a + 3)]
    _ = (span a 4).map t.byte := by rw [span_four]; rfl
    _ = (wordWrites e a v).map (fun w => t.byte w.1) := by rw [← map_fst_wordWrites e a v, List.map_map]; rfl
    _ = (wordWrites e a v).map Prod.snd :=
      List.map_congr_left fun w hw => s.putBytes_byte_self _ h hnodup w hw
    _ = wordBytes e v := map_snd_wordWrites e a v

theorem State.putBytes_wordWrites_word (s : State) (a v : Word) (h : Memory.wf s.mem) :
    (s.putBytes (wordWrites s.params.endian a v)).word a = v := by
  rw [State.word, State.putBytes_params]
  exact joinWord_of_wordBytes (s.putBytes_wordWrites_bytes s.params.endian a v h)

/-- R58's narrower reads, from the four bytes they read. -/
theorem State.narrowReads_of_bytes {s : State} {a : Word} {e : Endian} {b0 b1 b2 b3 : Byte} (he : s.params.endian = e)
    (h : [s.byte a, s.byte (a + 1), s.byte (a + 2), s.byte (a + 3)] = [b0, b1, b2, b3]) :
    s.byte a = b0 ∧ s.byte (a + 1) = b1 ∧ s.byte (a + 2) = b2 ∧ s.byte (a + 3) = b3 ∧
      s.half a = joinHalf e b0 b1 ∧ s.half (a + 2) = joinHalf e b2 b3 := by
  simp only [List.cons.injEq, and_true] at h
  obtain ⟨rfl, rfl, rfl, rfl⟩ := h
  subst he
  exact ⟨rfl, rfl, rfl, rfl, rfl, s.half_add_two a⟩

/-- Settles O39: the bytes of the word written give what each narrower read returns in either order, and the last write
to each byte decides what a read after any list of writes joins. -/
theorem narrowReadsOfWrittenWord : Obligations.NarrowReadsOfWrittenWord := by
  unfold Obligations.NarrowReadsOfWrittenWord
  intro s a hwf _ t
  have hparams : t.params = s.params := s.putBytes_params _
  have hbytes : [t.byte a, t.byte (a + 1), t.byte (a + 2), t.byte (a + 3)] = wordBytes s.params.endian 0x11223344 :=
    s.putBytes_wordWrites_bytes s.params.endian a 0x11223344 hwf
  refine ⟨s.putBytes_wordWrites_word a _ hwf, fun hbig => ?_, fun hlittle => ?_, fun ws => ?_⟩
  · rw [hbig] at hbytes
    exact State.narrowReads_of_bytes ((congrArg Params.endian hparams).trans hbig) hbytes
  · rw [hlittle] at hbytes
    exact State.narrowReads_of_bytes ((congrArg Params.endian hparams).trans hlittle) hbytes
  · exact ⟨fun b => s.putBytes_byte ws b hwf, s.putBytes_word ws a hwf, s.putBytes_half ws a hwf,
      s.putBytes_half_add_two ws a hwf⟩

end Sys2Proof.Machine
end

section
/-! Proofs for the encoding (O5, O6): the rows of R88 say of each field of a word what R78, R79 and R81 say of it, so
the words that match no row are the ill-formed ones; and what a step does at one. -/

namespace Sys2Proof

/-! ## What the opcode and the function code ask of the other fields -/

/-- The codes that name an instruction (the function code under opcode 0 only), with 1 in each other field. R81 lets an
unused field hold 0 or 31 and no other value, so its check passes on the probe exactly when the codes leave the field
free. -/
def Fields.probe (f : Fields) : Fields where
  op := f.op
  rs := 1
  rt := 1
  rd := 1
  shamt := 1
  funct := if f.op = 0 then f.funct else 0

/-- The mask of a 5-bit field: no bit of a free one, every bit of an unused one. -/
def fieldMask (free : Bool) : BitVec 5 := if free then 0 else 31

/-- The fields of the mask of R88, from a probe. -/
def Fields.rowMask (q : Fields) : Fields where
  op := 63
  rs := fieldMask q.rsOk
  rt := fieldMask q.rtOk
  rd := fieldMask (q.rdOk && q.linkOk)
  shamt := fieldMask q.shamtOk
  funct := if q.op = 0 then 63 else 0

/-- The fields of the pattern of R88, from a probe: beside the codes only jalr's rd is not 0. -/
def Fields.rowPattern (q : Fields) : Fields where
  op := q.op
  rs := 0
  rt := 0
  rd := fieldMask q.linkOk
  shamt := 0
  funct := q.funct

/-- The bits of each field that a mask looks at. -/
def Fields.masked (f m : Fields) : Fields where
  op := f.op &&& m.op
  rs := f.rs &&& m.rs
  rt := f.rt &&& m.rt
  rd := f.rd &&& m.rd
  shamt := f.shamt &&& m.shamt
  funct := f.funct &&& m.funct

theorem and_fieldMask_false (v : BitVec 5) : v &&& fieldMask false = v := BitVec.and_allOnes

theorem and_fieldMask_eq_zero (v : BitVec 5) (free : Bool) : v &&& fieldMask free = 0 ↔ free = true ∨ v = 0 := by
  cases free with
  | true => simp [fieldMask]
  | false => rw [and_fieldMask_false, or_iff_right Bool.false_ne_true]

theorem and_opMask (v : BitVec 6) : v &&& 63 = v := BitVec.and_allOnes

@[simp] theorem Fields.probe_op (f : Fields) : f.probe.op = f.op := rfl

theorem Fields.probe_of_op_zero {f : Fields} (h : f.op = 0) :
    f.probe = { op := 0, rs := 1, rt := 1, rd := 1, shamt := 1, funct := f.funct } := by
  rw [Fields.probe, if_pos h, h]

theorem Fields.probe_of_op_ne_zero {f : Fields} (h : f.op ≠ 0) :
    f.probe = { op := f.op, rs := 1, rt := 1, rd := 1, shamt := 1, funct := 0 } := by
  rw [Fields.probe, if_neg h]

/-- Two words have the same probe when they have the same codes. -/
theorem Fields.probe_congr {f g : Fields} (hop : f.op = g.op) (hfn : f.op = 0 → f.funct = g.funct) :
    f.probe = g.probe := by
  by_cases h : f.op = 0
  · rw [probe_of_op_zero h, probe_of_op_zero (hop.symm.trans h), hfn h]
  · rw [probe_of_op_ne_zero h, probe_of_op_ne_zero (hop ▸ h), hop]

theorem Fields.probe_funct (f : Fields) : f.probe.funct = f.funct &&& if f.op = 0 then 63 else 0 := by
  by_cases h : f.op = 0
  · rw [probe_of_op_zero h, if_pos h, and_opMask]
  · rw [probe_of_op_ne_zero h, if_neg h]
    exact BitVec.and_zero.symm

@[simp] theorem Fields.probe_opListed (f : Fields) : f.probe.opListed = f.opListed := rfl

@[simp] theorem Fields.probe_functListed (f : Fields) : f.probe.functListed = f.functListed := by
  by_cases h : f.op = 0
  · simp [functListed, probe_of_op_zero h, h]
  · rw [functListed, functListed, probe_op, bne_iff_ne.mpr h, Bool.true_or, Bool.true_or]

/-! ## The checks of R81 as tests under a mask -/

theorem Fields.rsOk_iff_masked (f : Fields) : f.rsOk = true ↔ f.rs &&& fieldMask f.probe.rsOk = 0 := by
  rw [and_fieldMask_eq_zero]
  by_cases h : f.op = 0
  · simp [rsOk, probe_of_op_zero h, h]
  · simp_all [rsOk, probe_of_op_ne_zero h]

theorem Fields.rtOk_iff_masked (f : Fields) : f.rtOk = true ↔ f.rt &&& fieldMask f.probe.rtOk = 0 := by
  rw [and_fieldMask_eq_zero]
  by_cases h : f.op = 0
  · simp [rtOk, probe_of_op_zero h, h]
  · simp_all [rtOk, probe_of_op_ne_zero h]

theorem Fields.shamtOk_iff_masked (f : Fields) : f.shamtOk = true ↔ f.shamt &&& fieldMask f.probe.shamtOk = 0 := by
  rw [and_fieldMask_eq_zero]
  by_cases h : f.op = 0
  · simp [shamtOk, probe_of_op_zero h, h]
  · simp_all [shamtOk, probe_of_op_ne_zero h]

theorem Fields.rdOk_iff_masked (f : Fields) : f.rdOk = true ↔ f.rd &&& fieldMask f.probe.rdOk = 0 := by
  rw [and_fieldMask_eq_zero]
  by_cases h : f.op = 0
  · simp [rdOk, probe_of_op_zero h, h]
  · simp_all [rdOk, probe_of_op_ne_zero h]

theorem Fields.linkOk_iff (f : Fields) : f.linkOk = true ↔ f.probe.linkOk = true ∨ f.rd = 31 := by
  by_cases h : f.op = 0
  · simp [linkOk, probe_of_op_zero h, h]
  · simp_all [linkOk, probe_of_op_ne_zero h]

/-- The codes that put the link in rd are none of those that leave rd unused. -/
theorem Fields.rdOk_of_linkOk_eq_false {f : Fields} (h : f.linkOk = false) : f.rdOk = true := by
  obtain ⟨⟨hop, hfn⟩, _⟩ : (f.op = 0 ∧ f.funct = 9) ∧ f.rd ≠ 31 := by simpa [linkOk] using h
  simp [rdOk, hop, hfn]

/-- The two checks of rd as one: the link of jalr is 31, every other unused rd is 0. -/
theorem Fields.rdOk_and_linkOk_iff_masked (f : Fields) :
    (f.rdOk = true ∧ f.linkOk = true) ↔
      f.rd &&& fieldMask (f.probe.rdOk && f.probe.linkOk) = fieldMask f.probe.linkOk := by
  rw [f.rdOk_iff_masked, f.linkOk_iff]
  cases hlink : f.probe.linkOk with
  | true =>
    rw [Bool.and_true]
    exact and_iff_left (.inl rfl)
  | false =>
    have hrd : f.rd &&& fieldMask f.probe.rdOk = 0 :=
      (and_fieldMask_eq_zero f.rd _).mpr (.inl (rdOk_of_linkOk_eq_false hlink))
    rw [Bool.and_false, and_fieldMask_false]
    exact (and_iff_right hrd).trans (or_iff_right Bool.false_ne_true)

/-- R78, R79 and R81 as one test under a mask, the form of R88. -/
theorem Fields.wellFormed_iff_masked (f : Fields) :
    f.wellFormed = true ↔
      f.opListed = true ∧ f.functListed = true ∧ f.masked f.probe.rowMask = f.probe.rowPattern := by
  have hop : f.op &&& 63 = f.probe.op := and_opMask f.op
  have hfn : (f.funct &&& if f.probe.op = 0 then 63 else 0) = f.probe.funct := f.probe_funct.symm
  simp only [Fields.masked, Fields.rowMask, Fields.rowPattern, Fields.mk.injEq, hop, hfn, true_and, and_true,
    ← Fields.rsOk_iff_masked, ← Fields.rtOk_iff_masked, ← Fields.shamtOk_iff_masked,
    ← Fields.rdOk_and_linkOk_iff_masked, Fields.wellFormed, Bool.and_eq_true]
  tauto

/-! ## The table against the checks -/

theorem rowMatches_iff_masked (r : Row) (w : Word) :
    rowMatches r w = true ↔ (fieldsOf w).masked (fieldsOf r.mask) = fieldsOf r.pattern := by
  rw [rowMatches_iff, ← Fields.mk.injEq]
  rfl

/-- Every row of R88 names listed codes, and its mask and pattern are the ones those codes ask for. -/
theorem rows_agree_with_checks : ∀ r ∈ rows,
    (fieldsOf r.pattern).opListed = true ∧ (fieldsOf r.pattern).functListed = true ∧
      fieldsOf r.mask = (fieldsOf r.pattern).probe.rowMask ∧
      fieldsOf r.pattern = (fieldsOf r.pattern).probe.rowPattern := by
  decide

theorem exists_row_of_op : ∀ op ∈ listedOps, op ≠ 0 → ∃ r ∈ rows, (fieldsOf r.pattern).op = op := by decide

theorem exists_row_of_funct : ∀ fn ∈ listedFuncts, ∃ r ∈ rows,
    (fieldsOf r.pattern).op = 0 ∧ (fieldsOf r.pattern).funct = fn := by decide

/-- Each pair of listed codes has a row. -/
theorem exists_row_of_listed {f : Fields} (hop : f.opListed = true) (hfn : f.functListed = true) :
    ∃ r ∈ rows, (fieldsOf r.pattern).probe = f.probe := by
  by_cases h0 : f.op = 0
  · have hmem : f.funct ∈ listedFuncts := by simpa [Fields.functListed, h0] using hfn
    obtain ⟨r, hr, hrop, hrfn⟩ := exists_row_of_funct f.funct hmem
    exact ⟨r, hr, Fields.probe_congr (hrop.trans h0.symm) fun _ => hrfn⟩
  · have hmem : f.op ∈ listedOps := by simpa [Fields.opListed] using hop
    obtain ⟨r, hr, hrop⟩ := exists_row_of_op f.op hmem h0
    exact ⟨r, hr, Fields.probe_congr hrop fun h => absurd (hrop.symm.trans h) h0⟩

/-- A word that matches a row has the codes of the row. -/
theorem probe_eq_of_rowMatches {r : Row} {w : Word} (hr : r ∈ rows) (h : rowMatches r w = true) :
    (fieldsOf w).probe = (fieldsOf r.pattern).probe := by
  obtain ⟨_, _, hmask, _⟩ := rows_agree_with_checks r hr
  obtain ⟨hop, _, _, _, _, hfn⟩ := (rowMatches_iff r w).mp h
  have hop' : (fieldsOf w).op = (fieldsOf r.pattern).op := by
    rwa [hmask, Fields.rowMask, and_opMask] at hop
  refine Fields.probe_congr hop' fun h0 => ?_
  rwa [hmask, Fields.rowMask, Fields.probe_op, if_pos (hop'.symm.trans h0), and_opMask] at hfn

theorem exists_rowMatches_iff_wellFormed (w : Word) :
    (∃ r ∈ rows, rowMatches r w = true) ↔ (fieldsOf w).wellFormed = true := by
  rw [Fields.wellFormed_iff_masked]
  constructor
  · rintro ⟨r, hr, hmatch⟩
    obtain ⟨hop, hfn, hmask, hpattern⟩ := rows_agree_with_checks r hr
    have hprobe := probe_eq_of_rowMatches hr hmatch
    rw [← Fields.probe_opListed, ← Fields.probe_functListed, hprobe, ← hmask, ← hpattern]
    exact ⟨hop, (Fields.probe_functListed _).trans hfn, (rowMatches_iff_masked r w).mp hmatch⟩
  · rintro ⟨hop, hfn, hmasked⟩
    obtain ⟨r, hr, hprobe⟩ := exists_row_of_listed hop hfn
    obtain ⟨_, _, hmask, hpattern⟩ := rows_agree_with_checks r hr
    rw [← hprobe, ← hmask, ← hpattern] at hmasked
    exact ⟨r, hr, (rowMatches_iff_masked r w).mpr hmasked⟩

/-! ## Words that match no row -/

theorem rowMatches_eq_false_iff (r : Row) (w : Word) : rowMatches r w = false ↔ w &&& r.mask ≠ r.pattern :=
  beq_eq_false_iff_ne

theorem matches_no_row_iff (w : Word) :
    (∀ r ∈ rows, w &&& r.mask ≠ r.pattern) ↔ (fieldsOf w).wellFormed = false := by
  rw [← Bool.not_eq_true, ← exists_rowMatches_iff_wellFormed]
  simp [← rowMatches_eq_false_iff]

theorem decode_eq_reserved {w : Word} (h : ∀ r ∈ rows, w &&& r.mask ≠ r.pattern) :
    decode w = .error (.reserved w) := by
  rcases decode_cases w with ⟨r, hr, hmatch, _⟩ | ⟨_, hdecode⟩
  · exact absurd (beq_iff_eq.mp hmatch) (h r hr)
  · exact hdecode

end Sys2Proof

namespace Sys2Proof.Machine

/-! ## A step whose fetch fails -/

theorem State.ended_eq_false {s : State} (h : s.pc ≠ s.params.haltPc) : s.ended = false := by
  simp [State.ended, h]

theorem State.fetchInstr_reserved {s : State} {w : Word} (hfetch : s.fetchWord = .ok w)
    (hdecode : decode w = .error (.reserved w)) : s.fetchInstr = .error (.reservedInstruction w) := by
  simp [State.fetchInstr, hfetch, hdecode]

theorem step_fetchFault {s : State} {f : Fault} (hfault : s.fault = none) (hpc : s.pc ≠ s.params.haltPc)
    (h : s.fetchInstr = .error f) : step s = .fault f := by
  simp [step, hfault, State.ended_eq_false hpc, h]

theorem settle_of_step_fault {s : State} {f : Fault} (hfault : s.fault = none) (h : step s = .fault f) :
    settle s = { s with fault := some { reason := f, pc := s.pc } } := by
  rw [settle, h]
  exact s.enterFault_of_none f hfault

/-- Settles O6: the table of R88 matches exactly the well-formed words, and the decoder's refusal of the others is the
fault of the step. -/
theorem reservedWordStops : Obligations.ReservedWordStops := by
  unfold Obligations.ReservedWordStops
  intro w
  refine ⟨matches_no_row_iff w, fun s hreserved hfault hpc hfetch => ?_⟩
  have hstep : step s = .fault (.reservedInstruction w) :=
    step_fetchFault hfault hpc (State.fetchInstr_reserved hfetch (decode_eq_reserved hreserved))
  exact ⟨hstep, settle_of_step_fault hfault hstep⟩

/-- Settles O5: each word by the encoder, and back by the one row of R88 that it matches. -/
theorem workedEncodings : Obligations.WorkedEncodings := by
  unfold Obligations.WorkedEncodings
  refine ⟨⟨?_, ?_⟩, ⟨?_, ?_⟩, ?_, ?_, ?_⟩
  · decide
  · exact decode_of_row 12 _ _ rfl rfl
  · decide
  · exact decode_of_row 3 _ _ rfl rfl
  · decide
  · exact decode_of_row 48 _ _ rfl rfl
  · decide

end Sys2Proof.Machine
end

section
/-! Proofs for reset (O12): what a fetch at an aligned pc reads when no store has run, and what R230 leaves. -/

namespace Sys2Proof.Machine

/-! ## A register other than 0 -/

theorem State.x_succ (s : State) (n : Fin 31) : s.x n.succ = s.gpr[n] := by
  simp [State.x]

/-! ## A fetch that succeeds -/

/-- The checks of R59 in their order, each passed: the fetch reads the word at the pc. -/
theorem State.fetchWord_eq_word {s : State} (halign : wordAligned s.pc) (hdirty : (wordBase s.pc).toNat ∉ s.dirty)
    (hmapped : ∀ b ∈ span s.pc 4, s.mapped .fetch b = true) : s.fetchWord = .ok (s.word s.pc) := by
  have hclean : ¬s.pcDirty = true := by simpa [State.pcDirty] using hdirty
  rw [State.fetchWord, if_neg (not_not_intro halign), if_neg hclean, if_pos (List.all_eq_true.mpr hmapped)]

/-! ## The state after reset -/

/-- The image is all that a platform chooses of what the invariant speaks of. -/
theorem State.boot_inv {image : Memory} (p : Params) (gpr : Vector Word 31) (hi lo : Word) (h : Memory.wf image) :
    (State.boot p image gpr hi lo).Inv :=
  ⟨h, Nat.zero_le 2, Nat.zero_le 2, List.Pairwise.nil, List.forall_mem_nil _⟩

theorem State.boot_fetchWord {p : Params} {image : Memory} {gpr : Vector Word 31} {hi lo : Word}
    (halign : wordAligned p.resetPc)
    (hmapped : ∀ b ∈ span p.resetPc 4, (State.boot p image gpr hi lo).mapped .fetch b = true) :
    (State.boot p image gpr hi lo).fetchWord = .ok ((State.boot p image gpr hi lo).word p.resetPc) :=
  State.fetchWord_eq_word (s := State.boot p image gpr hi lo) halign List.not_mem_nil hmapped

/-- Settles O12: the fields as the platform sets them, the invariant from empty guards and an empty `dirty`, and a first
fetch that no store can have stopped. -/
theorem bootLeavesResetValues : Obligations.BootLeavesResetValues := by
  unfold Obligations.BootLeavesResetValues
  intro p image gpr hi lo s
  have hregs : ∀ n : Fin 31, s.x n.succ = gpr[n] := s.x_succ
  have hbytes : ∀ a, s.byte a = Memory.read image a.toNat := fun _ => rfl
  exact ⟨s.x_zero, hregs, rfl, rfl, rfl, hbytes, rfl, rfl, rfl, rfl, rfl, State.boot_inv p gpr hi lo,
    State.boot_fetchWord⟩

end Sys2Proof.Machine
end

section
/-! Proofs for the encoding (O1, O2, O3, O4): a word decodes to an instruction exactly when it is the word of that
instruction, by the one row of R88 that stands for the instruction; and no word matches two rows. -/

namespace Sys2Proof

/-! ## A word of a format, field by field -/

theorem toFin_eq_iff (v : BitVec 5) (r : Reg) : v.toFin = r ↔ v = BitVec.ofFin r :=
  ⟨fun h => h ▸ rfl, fun h => h ▸ rfl⟩

theorem eq_iff_fieldsOf_eq (v w : Word) : v = w ↔ fieldsOf v = fieldsOf w :=
  ⟨congrArg fieldsOf, eq_of_fieldsOf_eq v w⟩

theorem eq_formR_iff (w : Word) (rs rt rd : Reg) (sh : BitVec 5) (fn : BitVec 6) :
    w = formR rs rt rd sh fn ↔
      (fieldsOf w).op = 0 ∧ rsOf w = rs ∧ rtOf w = rt ∧ rdOf w = rd ∧ shamtOf w = sh ∧ (fieldsOf w).funct = fn := by
  rw [eq_iff_fieldsOf_eq, fieldsOf_formR, rsOf_eq, rtOf_eq, rdOf_eq, shamtOf_eq, toFin_eq_iff, toFin_eq_iff,
    toFin_eq_iff, ← Fields.mk.injEq]

theorem formI_fields (w : Word) : formI (fieldsOf w).op (rsOf w) (rtOf w) (immOf w) = w := by
  simp only [formI, fieldsOf, rsOf, rtOf, immOf]
  simp (disch := omega) only [BitVec.extractLsb'_append_extractLsb'_eq_extractLsb', BitVec.ofFin_toFin]
  exact BitVec.extractLsb'_eq_self

theorem eq_formI_iff (w : Word) (op : BitVec 6) (rs rt : Reg) (imm : Half) :
    w = formI op rs rt imm ↔ (fieldsOf w).op = op ∧ rsOf w = rs ∧ rtOf w = rt ∧ immOf w = imm := by
  constructor
  · rintro rfl
    simp
  · rintro ⟨rfl, rfl, rfl, rfl⟩
    exact (formI_fields w).symm

theorem formJ_fields (w : Word) : formJ (fieldsOf w).op (targetOf w) = w := by
  simp only [formJ, fieldsOf, targetOf]
  simp (disch := omega) only [BitVec.extractLsb'_append_extractLsb'_eq_extractLsb']
  exact BitVec.extractLsb'_eq_self

theorem eq_formJ_iff (w : Word) (op : BitVec 6) (target : BitVec 26) :
    w = formJ op target ↔ (fieldsOf w).op = op ∧ targetOf w = target := by
  constructor
  · rintro rfl
    simp [fieldsOf_formJ_op]
  · rintro ⟨rfl, rfl⟩
    exact (formJ_fields w).symm

/-! ## The one row of an instruction -/

theorem and_opField (v : BitVec 6) : v &&& 63#6 = v := BitVec.and_allOnes

theorem and_registerField (v : BitVec 5) : v &&& 31#5 = v := BitVec.and_allOnes

theorem rsOf_eq_iff (w : Word) (r : Reg) : rsOf w = r ↔ w.extractLsb' 21 5 = BitVec.ofFin r := toFin_eq_iff _ r
theorem rtOf_eq_iff (w : Word) (r : Reg) : rtOf w = r ↔ w.extractLsb' 16 5 = BitVec.ofFin r := toFin_eq_iff _ r
theorem rdOf_eq_iff (w : Word) (r : Reg) : rdOf w = r ↔ w.extractLsb' 11 5 = BitVec.ofFin r := toFin_eq_iff _ r

/-- The rows stand in the order of the constructors. The row of an instruction asks of a word its opcode, its function
code and its unused fields, and builds the operands from the other fields: all that the encoder's format fixes. -/
theorem row_iff_eq_encode (i : Instr) :
    ∃ r, rows[i.ctorIdx]? = some r ∧ ∀ w, rowMatches r w = true ∧ r.build w = i ↔ w = encode i := by
  cases i with
  | lb | lh | lwl | lw | lbu | lhu | lwr | sb | sh | swl | sw | swr
  | addi | addiu | andi | ori | xori | slti | sltiu | lui | beq | bne =>
    refine ⟨_, rfl, fun w => ?_⟩
    simp [encode, eq_formI_iff, rowMatches_iff, fieldsOf, and_opField, and_registerField, rsOf_eq_iff, rtOf_eq_iff,
      and_assoc, and_left_comm]
  | j | jal =>
    refine ⟨_, rfl, fun w => ?_⟩
    simp [encode, eq_formJ_iff, rowMatches_iff, fieldsOf, and_opField]
  | add | addu | sub | subu | and | or | xor | nor | slt | sltu | sll | srl | sra | sllv | srlv | srav
  | mult | multu | div | divu | mfhi | mthi | mflo | mtlo | jr | jalr =>
    refine ⟨_, rfl, fun w => ?_⟩
    simp [encode, eq_formR_iff, rowMatches_iff, fieldsOf, and_opField, and_registerField, rsOf_eq_iff, rtOf_eq_iff,
      rdOf_eq_iff, shamtOf]
    -- Both sides are the same equations between fields, in two orders.
    tauto

theorem row_of_build : ∀ r ∈ rows, ∀ w, rows[(r.build w).ctorIdx]? = some r := by
  intro r hr w
  fin_cases hr <;> rfl

/-! ## The decoder -/

/-- The words that decode to an instruction: the encoder's, and no other. -/
theorem decode_eq_ok_iff (w : Word) (i : Instr) : decode w = .ok i ↔ w = encode i := by
  obtain ⟨r, hrow, hiff⟩ := row_iff_eq_encode i
  rw [← hiff w]
  constructor
  · intro hdecode
    rcases decode_cases w with ⟨q, hq, hmatch, hok⟩ | ⟨_, herror⟩
    · obtain rfl : q.build w = i := Except.ok.inj (hok.symm.trans hdecode)
      obtain rfl : q = r := Option.some.inj ((row_of_build q hq w).symm.trans hrow)
      exact ⟨hmatch, rfl⟩
    · exact absurd (herror.symm.trans hdecode) (by simp)
  · rintro ⟨hmatch, rfl⟩
    exact decode_of_row _ r w hrow hmatch

/-- Settles O1, by `decode_eq_ok_iff`. -/
theorem decodeInvertsEncode : Obligations.DecodeInvertsEncode := by
  unfold Obligations.DecodeInvertsEncode
  exact fun i => (decode_eq_ok_iff _ i).mpr rfl

/-- Settles O2, by `decode_eq_ok_iff`. -/
theorem encodeInvertsDecode : Obligations.EncodeInvertsDecode := by
  unfold Obligations.EncodeInvertsDecode
  exact fun w i hdecode => ((decode_eq_ok_iff w i).mp hdecode).symm

theorem exists_decode_iff_exists_rowMatches (w : Word) :
    (∃ i, decode w = .ok i) ↔ ∃ r ∈ rows, rowMatches r w = true := by
  rcases decode_cases w with ⟨r, hr, hmatch, hok⟩ | ⟨hnone, herror⟩
  · exact iff_of_true ⟨_, hok⟩ ⟨r, hr, hmatch⟩
  · simpa [herror] using hnone

/-- Settles O3: the rows match the well-formed words, and the decoder answers where a row matches. -/
theorem decodeAcceptsWellFormedWords : Obligations.DecodeAcceptsWellFormedWords := by
  unfold Obligations.DecodeAcceptsWellFormedWords
  exact fun w => (exists_decode_iff_exists_rowMatches w).trans (exists_rowMatches_iff_wellFormed w)

/-! ## No word matches two rows -/

theorem row_unique_of_rowMatches {a b : Row} {w : Word} (ha : a ∈ rows) (hb : b ∈ rows)
    (hma : rowMatches a w = true) (hmb : rowMatches b w = true) : a = b := by
  have hdisjoint : rows.Pairwise fun a b => ¬(rowMatches a w = true ∧ rowMatches b w = true) :=
    rows_clash.imp fun {a b} hclash => not_both_match a b w hclash
  have hfind := find_of_pairwise (rowMatches · w) rows a ha hma hdisjoint
  exact Option.some.inj (hfind.symm.trans (find_of_pairwise _ rows b hb hmb hdisjoint))

/-- Settles O4: two rows of the table ask for different values of some bit, so one word cannot match both. -/
theorem patternsAreDisjoint : Obligations.PatternsAreDisjoint := by
  unfold Obligations.PatternsAreDisjoint
  refine ⟨rfl, fun w a b ha hb hma hmb => ?_⟩
  rw [row_unique_of_rowMatches ha hb (beq_iff_eq.mpr hma) (beq_iff_eq.mpr hmb)]

end Sys2Proof
end

section
/-! Proofs for what one instruction changes (O21 to O25): one frame that every instruction keeps to, read off the shape
of its effect. -/

namespace Sys2Proof.Machine

/-! ## The frame of an instruction -/

/-- What `i`, run at `s`, may have changed in the next state `t`: its destination, HI and LO where it writes them, the
bytes it stores, each mapped for store, and the pc where it is a branch or jump. -/
structure Frame (i : Instr) (s t : State) : Prop where
  params : t.params = s.params
  fault : t.fault = s.fault
  regs : ∀ r, destOf i ≠ some r → t.x r = s.x r
  hi : writesHi i = false → t.hi = s.hi
  lo : writesLo i = false → t.lo = s.lo
  pc : isTransfer i = false → t.pc = s.pc + 4
  mem : t.mem = (s.putBytes (storesOf i s)).mem
  dirty : t.dirty = (s.putBytes (storesOf i s)).dirty
  mapped : ∀ a ∈ (storesOf i s).map Prod.fst, s.mapped .store a = true

theorem Frame.of_result {i : Instr} {s t : State} {r : Reg} {v : Word} (h : ResultEffect s t r v ∧ t.mem = s.mem)
    (hdest : destOf i = some r) (hstores : storesOf i s = []) : Frame i s t := by
  obtain ⟨⟨⟨_, hregs⟩, ⟨hhi, hlo⟩, ⟨_, hdirty⟩, _, ⟨hparams, hfault, _⟩, hpc⟩, hmem⟩ := h
  refine ⟨hparams, hfault, fun q hq => ?_, fun _ => hhi, fun _ => hlo, fun _ => hpc, ?_, ?_, ?_⟩
  · rw [hdest] at hq
    exact hregs q (.inl fun e => hq (congrArg some e.symm))
  · simpa [hstores] using hmem
  · simpa [hstores] using hdirty
  · simp [hstores]

/-- For an instruction that writes one of the pair, the other is written with the value it had. -/
theorem Frame.of_hiLo {i : Instr} {s t : State} {v w : Word} (h : HiLoEffect s t v w ∧ t.mem = s.mem)
    (hhi : writesHi i = false → v = s.hi) (hlo : writesLo i = false → w = s.lo) (hstores : storesOf i s = []) :
    Frame i s t := by
  obtain ⟨⟨hv, hw, hregs, ⟨_, hdirty⟩, _, ⟨hparams, hfault, _⟩, hpc⟩, hmem⟩ := h
  refine ⟨hparams, hfault, fun q _ => hregs q, fun hn => hv.trans (hhi hn), fun hn => hw.trans (hlo hn),
    fun _ => hpc, ?_, ?_, ?_⟩
  · simpa [hstores] using hmem
  · simpa [hstores] using hdirty
  · simp [hstores]

/-- The pair of a division with open values included: only the draws have moved before the write. -/
theorem Frame.of_writesHiLo {i : Instr} {s t : State} (h : exec i s = .next t) (hhi : writesHi i = true)
    (hlo : writesLo i = true) (hstores : storesOf i s = []) : Frame i s t := by
  obtain ⟨n, v, w, hexec⟩ := exec_eq_writeHiLo s hhi hlo
  obtain ⟨_, _, ⟨_, _, hregs, ⟨_, hdirty⟩, _, ⟨hparams, hfault, _⟩, hpc⟩, hmem⟩ :=
    State.writeHiLo_next { s with draws := n } t v w (hexec.symm.trans h)
  refine ⟨hparams, hfault, fun q _ => hregs q, by simp [hhi], by simp [hlo], fun _ => hpc, ?_, ?_, ?_⟩
  · simpa [hstores] using hmem
  · simpa [hstores] using hdirty
  · simp [hstores]

theorem Frame.of_store {i : Instr} {s t : State} {a : Word} {align : Nat}
    (h : s.storeBytes a align (storesOf i s) = .next t) : Frame i s t := by
  obtain ⟨hcheck, rfl⟩ := s.storeBytes_next t a align _ h
  obtain ⟨_, hmapped⟩ := (s.accessFault_eq_none .store a align _).mp hcheck
  obtain ⟨hparams, _, hhi, hlo, hpc, _, _, hfault, _⟩ := s.putBytes_frame (storesOf i s)
  exact ⟨hparams, hfault, fun q _ => s.putBytes_x _ q, fun _ => hhi, fun _ => hlo,
    fun _ => by rw [State.advance_pc, hpc], rfl, rfl, hmapped⟩

theorem Frame.of_goto {i : Instr} {s : State} (target : Word) (htransfer : isTransfer i = true)
    (hstores : storesOf i s = []) : Frame i s (s.goto target) := by
  refine ⟨rfl, rfl, fun _ _ => rfl, fun _ => rfl, fun _ => rfl, by simp [htransfer], ?_, ?_, ?_⟩ <;> simp [hstores]

theorem Frame.of_link {i : Instr} {s : State} (target : Word) (hdest : destOf i = some ra)
    (htransfer : isTransfer i = true) (hstores : storesOf i s = []) : Frame i s ((s.setX ra s.npc).goto target) := by
  refine ⟨by simp, by simp, fun q hq => ?_, by simp, by simp, by simp [htransfer], ?_, ?_, ?_⟩
  · rw [hdest] at hq
    exact s.x_setX_other ra q _ (.inl fun e => hq (congrArg some e.symm))
  · simp [hstores]
  · simp [hstores]
  · simp [hstores]

theorem Frame.startHiGuard {i : Instr} {s t : State} (h : Frame i s t) : Frame i s t.startHiGuard :=
  ⟨h.params, h.fault, h.regs, h.hi, h.lo, h.pc, h.mem, h.dirty, h.mapped⟩

theorem Frame.startLoGuard {i : Instr} {s t : State} (h : Frame i s t) : Frame i s t.startLoGuard :=
  ⟨h.params, h.fault, h.regs, h.hi, h.lo, h.pc, h.mem, h.dirty, h.mapped⟩

/-- All that jalr can answer with a next state. -/
theorem execJalr_next {s t : State} {rs : Reg} (h : execJalr rs s = .next t) :
    t = (s.setX ra s.npc).goto (s.x rs) := by
  unfold execJalr at h
  split at h
  · contradiction
  · exact (Host.Outcome.next.inj h).symm

/-- All 50 instructions keep to their frame. -/
theorem exec_frame {i : Instr} {s t : State} (h : exec i s = .next t) : Frame i s t := by
  cases i with
  | lb | lh | lwl | lw | lbu | lhu | lwr => exact .of_result (s.loadResult_next t _ _ _ _ _ h).right rfl rfl
  | sb | sh | swl | sw | swr => exact .of_store h
  | add | sub | addi => exact .of_result (s.resultUnless_next t _ _ _ h).right rfl rfl
  | addu | subu | addiu | and | andi | or | ori | xor | xori | nor | slt | sltu | slti | sltiu | lui
  | sll | srl | sra | sllv | srlv | srav => exact .of_result (s.result_next t _ _ h) rfl rfl
  | mult | multu | div | divu => exact .of_writesHiLo h rfl rfl rfl
  | mfhi rd =>
    obtain rfl := Host.Outcome.next.inj h
    exact Frame.startHiGuard (.of_result (s.result_next _ rd s.hi rfl) rfl rfl)
  | mflo rd =>
    obtain rfl := Host.Outcome.next.inj h
    exact Frame.startLoGuard (.of_result (s.result_next _ rd s.lo rfl) rfl rfl)
  | mthi => exact .of_hiLo (s.writeHi_next t _ h).right nofun (fun _ => rfl) rfl
  | mtlo => exact .of_hiLo (s.writeLo_next t _ h).right (fun _ => rfl) nofun rfl
  | beq | bne | j | jr =>
    obtain rfl := Host.Outcome.next.inj h
    exact .of_goto _ rfl rfl
  | jal =>
    obtain rfl := Host.Outcome.next.inj h
    exact .of_link _ rfl rfl rfl
  | jalr =>
    rw [execJalr_next h]
    exact .of_link _ rfl rfl rfl

/-! ## The frame in the terms of the statements -/

theorem Frame.byte {i : Instr} {s t : State} (h : Frame i s t) (a : Word) :
    t.byte a = (s.putBytes (storesOf i s)).byte a :=
  congrArg (Memory.read · a.toNat) h.mem

theorem Frame.byte_of_not_stored {i : Instr} {s t : State} (h : Frame i s t) {a : Word}
    (ha : a ∉ (storesOf i s).map Prod.fst) : t.byte a = s.byte a :=
  (h.byte a).trans (s.putBytes_byte_other _ a ha)

theorem Frame.mem_dirty {i : Instr} {s t : State} (h : Frame i s t) (d : Nat) :
    d ∈ t.dirty ↔ d ∈ s.dirty ∨ ∃ w ∈ storesOf i s, d = (wordBase w.1).toNat := by
  rw [h.dirty, s.mem_putBytes_dirty]

/-- Settles O21, from the frame. -/
theorem onlyListedInstructionsWriteHiLo : Obligations.OnlyListedInstructionsWriteHiLo := by
  unfold Obligations.OnlyListedInstructionsWriteHiLo
  exact fun i s t h => ⟨(exec_frame h).hi, (exec_frame h).lo⟩

/-- Settles O22, from the frame. -/
theorem onlyTransfersLeaveSequence : Obligations.OnlyTransfersLeaveSequence := by
  unfold Obligations.OnlyTransfersLeaveSequence
  intro i s t h htransfer
  rw [(exec_frame h).pc htransfer]
  exact BitVec.toNat_add s.pc 4

/-- Settles O24, from the frame. -/
theorem registerFrame : Obligations.RegisterFrame := by
  unfold Obligations.RegisterFrame
  exact fun i s t h => ⟨t.x_zero, (exec_frame h).regs⟩

/-- Settles O25, from the frame. -/
theorem memoryFrame : Obligations.MemoryFrame := by
  unfold Obligations.MemoryFrame
  exact fun i s t h => ⟨fun a => (exec_frame h).byte_of_not_stored, (exec_frame h).mem_dirty⟩

/-! ## Where the pc stays aligned -/

theorem wordAligned_add_four {a : Word} (h : wordAligned a) : wordAligned (a + 4) := by
  unfold wordAligned at *
  bv_omega

theorem branchTarget_toNat (a : Word) (imm : Half) :
    ((branchTarget a imm).toNat : Int) = (a.toNat + 4 * imm.toInt) % 2 ^ 32 := by
  have himm := sextImm_toInt imm
  rw [BitVec.toInt_eq_toNat_cond] at himm
  rw [branchTarget, BitVec.toNat_add, BitVec.toNat_shiftLeft, Nat.shiftLeft_eq, ← himm]
  split <;> omega

theorem toNat_append_eq_add {m n : Nat} (v : BitVec m) (w : BitVec n) :
    (v ++ w).toNat = 2 ^ n * v.toNat + w.toNat := by
  rw [BitVec.toNat_append, ← Nat.shiftLeft_add_eq_or_of_lt w.isLt, Nat.shiftLeft_eq, Nat.mul_comm]

theorem jumpTarget_toNat (a : Word) (target : BitVec 26) :
    (jumpTarget a target).toNat = a.toNat / 2 ^ 28 * 2 ^ 28 + 4 * target.toNat := by
  have ha := a.isLt
  simp only [jumpTarget, toNat_append_eq_add, BitVec.extractLsb'_toNat, Nat.shiftRight_eq_div_pow, BitVec.toNat_ofNat]
  omega

theorem branchTarget_aligned {a : Word} (imm : Half) (h : wordAligned a) : wordAligned (branchTarget a imm) := by
  have htarget := branchTarget_toNat a imm
  unfold wordAligned at h ⊢
  omega

theorem jumpTarget_aligned (a : Word) (target : BitVec 26) : wordAligned (jumpTarget a target) := by
  rw [wordAligned, jumpTarget_toNat]
  omega

theorem exec_pc_aligned {i : Instr} {s t : State} (h : exec i s = .next t) (halign : wordAligned s.pc)
    (hjr : ∀ rs, i ≠ .jr rs) (hjalr : ∀ rs, i ≠ .jalr rs) : wordAligned t.pc := by
  have hnpc : wordAligned s.npc := wordAligned_add_four halign
  cases i with
  | beq | bne =>
    obtain rfl := Host.Outcome.next.inj h
    rw [State.goto_pc]
    split
    · exact branchTarget_aligned _ hnpc
    · exact hnpc
  | j | jal =>
    obtain rfl := Host.Outcome.next.inj h
    exact jumpTarget_aligned _ _
  | jr rs => exact absurd rfl (hjr rs)
  | jalr rs => exact absurd rfl (hjalr rs)
  | _ => exact (exec_frame h).pc rfl ▸ hnpc

theorem exec_jr_pc {s t : State} {rs : Reg} (h : exec (.jr rs) s = .next t) : t.pc = s.x rs := by
  obtain rfl := Host.Outcome.next.inj h
  rfl

theorem exec_jalr_pc {s t : State} {rs : Reg} (h : exec (.jalr rs) s = .next t) : t.pc = s.x rs := by
  rw [execJalr_next h]
  rfl

/-- Settles O23: branches, j and jal keep an aligned pc aligned, and the other two copy their register. -/
theorem onlyJrJalrMisalignPc : Obligations.OnlyJrJalrMisalignPc := by
  unfold Obligations.OnlyJrJalrMisalignPc
  intro i s t h halign hmisaligned
  by_cases hjr : ∃ rs, i = .jr rs
  · obtain ⟨rs, rfl⟩ := hjr
    exact ⟨rs, .inl rfl, exec_jr_pc h⟩
  by_cases hjalr : ∃ rs, i = .jalr rs
  · obtain ⟨rs, rfl⟩ := hjalr
    exact ⟨rs, .inr rfl, exec_jalr_pc h⟩
  exact absurd (exec_pc_aligned h halign (not_exists.mp hjr) (not_exists.mp hjalr)) hmisaligned

end Sys2Proof.Machine
end

section
/-! Proofs for the step and the run (O7 to O11, O13 to O20): what a step can answer, what every step keeps, and what
holds however long the run. -/

namespace Sys2Proof.Machine

/-! ## What a step can answer -/

theorem step_of_fault {s : State} {r : FaultRecord} (h : s.fault = some r) : step s = .fault r.reason := by
  rw [step, h]

theorem step_of_ended {s : State} (hfault : s.fault = none) (hpc : s.pc = s.params.haltPc) : step s = .next s := by
  simp [step, State.ended, hfault, hpc]

theorem step_of_runs {s : State} {i : Instr} (h : s.runs i) : step s = exec i s := by
  obtain ⟨hfault, hpc, hfetch⟩ := h
  simp [step, hfault, State.ended_eq_false hpc, hfetch]

/-- The four things that a step can find. -/
theorem step_cases (s : State) :
    (∃ r, s.fault = some r ∧ step s = .fault r.reason) ∨
      (s.fault = none ∧ s.pc = s.params.haltPc ∧ step s = .next s) ∨
      (s.fault = none ∧ s.pc ≠ s.params.haltPc ∧ ∃ f, s.fetchInstr = .error f ∧ step s = .fault f) ∨
      ∃ i, s.runs i ∧ step s = exec i s := by
  cases hfault : s.fault with
  | some r => exact .inl ⟨r, rfl, step_of_fault hfault⟩
  | none =>
    by_cases hpc : s.pc = s.params.haltPc
    · exact .inr (.inl ⟨rfl, hpc, step_of_ended hfault hpc⟩)
    cases hfetch : s.fetchInstr with
    | error f => exact .inr (.inr (.inl ⟨rfl, hpc, f, rfl, step_fetchFault hfault hpc hfetch⟩))
    | ok i => exact .inr (.inr (.inr ⟨i, ⟨hfault, hpc, hfetch⟩, step_of_runs ⟨hfault, hpc, hfetch⟩⟩))

/-- A next state is the same state at the end of the run, or what an instruction leaves. -/
theorem step_next {s t : State} (h : step s = .next t) :
    s.fault = none ∧ (t = s ∨ ∃ i, s.runs i ∧ exec i s = .next t) := by
  rcases step_cases s with ⟨_, _, hstep⟩ | ⟨hfault, _, hstep⟩ | ⟨_, _, _, _, hstep⟩ | ⟨i, hruns, hstep⟩
  · exact absurd (h.symm.trans hstep) nofun
  · exact ⟨hfault, .inl (Host.Outcome.next.inj (h.symm.trans hstep))⟩
  · exact absurd (h.symm.trans hstep) nofun
  · exact ⟨hruns.left, .inr ⟨i, hruns, hstep.symm.trans h⟩⟩

theorem State.fetchInstr_of_decode {s : State} {w : Word} {i : Instr} (hfetch : s.fetchWord = .ok w)
    (hdecode : decode w = .ok i) : s.fetchInstr = .ok i := by
  simp [State.fetchInstr, hfetch, hdecode]

/-- Settles O7: the checks of the fetch pass and the decoder answers. -/
theorem stepRunsDecodedInstruction : Obligations.StepRunsDecodedInstruction := by
  unfold Obligations.StepRunsDecodedInstruction
  intro s i hfault hpc halign hdirty hmapped hdecode
  have hfetch : s.fetchWord = .ok (s.word s.pc) := State.fetchWord_eq_word halign hdirty hmapped
  exact step_of_runs ⟨hfault, hpc, State.fetchInstr_of_decode hfetch hdecode⟩

/-! ## No refusal -/

theorem State.resultUnless_ne_refused (s : State) (o : Bool) (r : Reg) (v : Word) (q : Refusal) :
    s.resultUnless o r v ≠ .refused q := by
  unfold State.resultUnless State.result; split <;> nofun

theorem State.loadResult_ne_refused (s : State) (a : Word) (align : Nat) (bytes : List Word) (r : Reg) (v : Word)
    (q : Refusal) : s.loadResult a align bytes r v ≠ .refused q := by
  unfold State.loadResult State.result; split <;> nofun

theorem State.storeBytes_ne_refused (s : State) (a : Word) (align : Nat) (ws : List (Word × Byte)) (q : Refusal) :
    s.storeBytes a align ws ≠ .refused q := by
  unfold State.storeBytes; split <;> nofun

theorem State.writeHi_ne_refused (s : State) (v : Word) (q : Refusal) : s.writeHi v ≠ .refused q := by
  unfold State.writeHi; split <;> nofun

theorem State.writeLo_ne_refused (s : State) (v : Word) (q : Refusal) : s.writeLo v ≠ .refused q := by
  unfold State.writeLo; split <;> nofun

theorem State.writeHiLo_ne_refused (s : State) (v w : Word) (q : Refusal) : s.writeHiLo v w ≠ .refused q := by
  unfold State.writeHiLo
  split
  · nofun
  · split <;> nofun

theorem exec_ne_refused_of_writesHiLo {i : Instr} (s : State) (q : Refusal) (hhi : writesHi i = true)
    (hlo : writesLo i = true) : exec i s ≠ .refused q := by
  obtain ⟨n, v, w, hexec⟩ := exec_eq_writeHiLo s hhi hlo
  exact hexec ▸ State.writeHiLo_ne_refused _ v w q

theorem exec_ne_refused (i : Instr) (s : State) (q : Refusal) : exec i s ≠ .refused q := by
  cases i with
  | lb | lh | lwl | lw | lbu | lhu | lwr => exact s.loadResult_ne_refused _ _ _ _ _ q
  | sb | sh | swl | sw | swr => exact s.storeBytes_ne_refused _ _ _ q
  | add | sub | addi => exact s.resultUnless_ne_refused _ _ _ q
  | mult | multu | div | divu => exact exec_ne_refused_of_writesHiLo s q rfl rfl
  | mthi => exact s.writeHi_ne_refused _ q
  | mtlo => exact s.writeLo_ne_refused _ q
  | jalr =>
    rw [exec, execJalr]
    split <;> nofun
  | _ => nofun

/-- Settles O11: the fetch and the decoder answer faults, and no instruction refuses. -/
theorem stepNeverRefuses : Obligations.StepNeverRefuses := by
  unfold Obligations.StepNeverRefuses
  intro s q
  rcases step_cases s with ⟨_, _, hstep⟩ | ⟨_, _, hstep⟩ | ⟨_, _, _, _, hstep⟩ | ⟨i, _, hstep⟩
  · exact hstep ▸ nofun
  · exact hstep ▸ nofun
  · exact hstep ▸ nofun
  · exact hstep ▸ exec_ne_refused i s q

/-! ## The faults of the fetch -/

theorem wordBase_of_aligned {a : Word} (h : a.toNat % 4 = 0) : (wordBase a).toNat = a.toNat := by
  rw [wordBase_toNat]
  omega

theorem State.fetchWord_misaligned {s : State} (h : s.pc.toNat % 4 ≠ 0) :
    s.fetchWord = .error (.addressError .fetch s.pc) := by
  rw [State.fetchWord, if_pos h]

theorem State.fetchWord_modified {s : State} (halign : s.pc.toNat % 4 = 0) (hdirty : s.pc.toNat ∈ s.dirty) :
    s.fetchWord = .error (.fetchOfModifiedCode s.pc) := by
  have hpc : s.pcDirty = true := by simpa [State.pcDirty, wordBase_of_aligned halign] using hdirty
  rw [State.fetchWord, if_neg (not_not_intro halign), if_pos hpc]

theorem State.fetchWord_unmapped {s : State} {b : Word} (halign : s.pc.toNat % 4 = 0) (hdirty : s.pc.toNat ∉ s.dirty)
    (hb : b ∈ span s.pc 4) (hmapped : s.mapped .fetch b = false) : s.fetchWord = .error (.busError .fetch s.pc) := by
  have hpc : ¬s.pcDirty = true := by simpa [State.pcDirty, wordBase_of_aligned halign] using hdirty
  have hall : ¬(span s.pc 4).all (s.mapped .fetch) = true := fun hall =>
    absurd (List.all_eq_true.mp hall b hb) (by simp [hmapped])
  rw [State.fetchWord, if_neg (not_not_intro halign), if_neg hpc, if_neg hall]

theorem mem_span {a : Word} {n k : Nat} (h : k < n) : a + BitVec.ofNat 32 k ∈ span a n :=
  List.mem_map_of_mem (List.mem_range.mpr h)

theorem step_of_fetchWord_error {s : State} {f : Fault} (hfault : s.fault = none) (hpc : s.pc ≠ s.params.haltPc)
    (h : s.fetchWord = .error f) : step s = .fault f :=
  step_fetchFault hfault hpc (by rw [State.fetchInstr, h])

/-- Settles O8: each check of the fetch is reached when the ones before it pass. -/
theorem fetchFaultOrder : Obligations.FetchFaultOrder := by
  unfold Obligations.FetchFaultOrder
  intro s hfault hpc
  refine ⟨fun hmis => ?_, fun halign hdirty => ?_, ?_⟩
  · exact step_of_fetchWord_error hfault hpc (State.fetchWord_misaligned hmis)
  · exact step_of_fetchWord_error hfault hpc (State.fetchWord_modified halign hdirty)
  · rintro halign hclean ⟨n, hn, hmapped⟩
    exact step_of_fetchWord_error hfault hpc (State.fetchWord_unmapped halign hclean (mem_span hn) hmapped)

/-! ## A fault is final, and so is the end of the run -/

theorem settle_of_step_next {s t : State} (h : step s = .next t) : settle s = t := by
  rw [settle, h]

theorem settle_of_fault {s : State} {r : FaultRecord} (h : s.fault = some r) : settle s = s := by
  rw [settle, step_of_fault h]
  exact s.enterFault_of_some _ r h

theorem settleN_of_settle_eq_self {s : State} (h : settle s = s) (n : Nat) : settleN n s = s := by
  induction n with
  | zero => rfl
  | succ n ih => rw [settleN, h, ih]

theorem State.ended_iff (s : State) : s.ended = true ↔ s.fault = none ∧ s.pc = s.params.haltPc := by
  simp [State.ended]

theorem not_succeeds_of_step_fault {s : State} {f : Fault} (hfault : s.fault = none) (h : step s = .fault f) :
    ¬s.succeeds := by
  have hsettle := settle_of_step_fault hfault h
  rintro ⟨n, hended⟩
  cases n with
  | zero =>
    obtain ⟨_, hpc⟩ := s.ended_iff.mp hended
    exact absurd (h.symm.trans (step_of_ended hfault hpc)) nofun
  | succ n =>
    rw [settleN, settleN_of_settle_eq_self (settle_of_fault (congrArg State.fault hsettle)), hsettle] at hended
    exact absurd ((State.ended_iff _).mp hended).left nofun

/-- Settles O9: the record is the one change, and a state with a record never moves again. -/
theorem faultIsPreciseAndTerminal : Obligations.FaultIsPreciseAndTerminal := by
  unfold Obligations.FaultIsPreciseAndTerminal
  intro s f hfault h
  have hsettle := settle_of_step_fault hfault h
  have hrecord : (settle s).fault = some { reason := f, pc := s.pc } := congrArg State.fault hsettle
  exact ⟨hsettle, step_of_fault hrecord, settleN_of_settle_eq_self (settle_of_fault hrecord),
    not_succeeds_of_step_fault hfault h⟩

/-- Settles O10: the step finds the end of the run before any fetch. -/
theorem endedRunIsFinal : Obligations.EndedRunIsFinal := by
  unfold Obligations.EndedRunIsFinal
  intro s hfault hpc
  have hstep := step_of_ended hfault hpc
  exact ⟨hstep, ⟨0, s.ended_iff.mpr ⟨hfault, hpc⟩⟩, settleN_of_settle_eq_self (settle_of_step_next hstep)⟩

/-! ## The invariant -/

theorem Frame.inv {i : Instr} {s t : State} (hframe : Frame i s t) (hinv : s.Inv) (hhi : t.hiGuard ≤ 2)
    (hlo : t.loGuard ≤ 2) : t.Inv := by
  obtain ⟨hwf, _, _, hrising, hdirty⟩ := hinv
  refine ⟨?_, hhi, hlo, ?_, fun d hd => ?_⟩
  · rw [hframe.mem]
    exact s.putBytes_wf _ hwf
  · rw [hframe.dirty]
    exact s.putBytes_dirty_pairwise _ hrising
  · rcases (hframe.mem_dirty d).mp hd with hold | ⟨w, _, rfl⟩
    · exact hdirty d hold
    · have hlt := w.1.isLt
      rw [wordBase_toNat]
      omega

theorem exec_hiGuard_le_two {i : Instr} {s t : State} (h : exec i s = .next t) (hs : s.hiGuard ≤ 2) :
    t.hiGuard ≤ 2 := by
  by_cases hmfhi : ∃ rd, i = .mfhi rd
  · obtain ⟨rd, rfl⟩ := hmfhi
    exact (exec_mfhi_guards h).left.le
  · have hguard := exec_hiGuard_of_not_mfhi h hmfhi
    omega

theorem exec_loGuard_le_two {i : Instr} {s t : State} (h : exec i s = .next t) (hs : s.loGuard ≤ 2) :
    t.loGuard ≤ 2 := by
  by_cases hmflo : ∃ rd, i = .mflo rd
  · obtain ⟨rd, rfl⟩ := hmflo
    exact (exec_mflo_guards h).right.le
  · have hguard := exec_loGuard_of_not_mflo h hmflo
    omega

theorem exec_inv {i : Instr} {s t : State} (h : exec i s = .next t) (hinv : s.Inv) : t.Inv := by
  have ⟨_, hhi, hlo, _⟩ := hinv
  exact (exec_frame h).inv hinv (exec_hiGuard_le_two h hhi) (exec_loGuard_le_two h hlo)

/-- Settles O14: the memory and `dirty` of a next state are those of byte writes, and the guards start at 2. -/
theorem stepKeepsInvariant : Obligations.StepKeepsInvariant := by
  unfold Obligations.StepKeepsInvariant
  intro s t hinv h
  obtain ⟨_, rfl | ⟨i, _, hexec⟩⟩ := step_next h
  · exact hinv
  · exact exec_inv hexec hinv

/-- Settles O13: reset is a boot with an empty image. -/
theorem resetMeetsInvariant : Obligations.ResetMeetsInvariant := by
  unfold Obligations.ResetMeetsInvariant
  exact ⟨State.boot_inv _ _ _ _ ⟨List.Pairwise.nil, List.forall_mem_nil _⟩, by decide⟩

/-! ## What every step keeps -/

/-- Settles O15: an instruction keeps parameters and fault, and none runs in a faulted state. -/
theorem stepKeepsParameters : Obligations.StepKeepsParameters := by
  unfold Obligations.StepKeepsParameters
  intro s t h
  obtain ⟨hfault, rfl | ⟨i, _, hexec⟩⟩ := step_next h
  · exact ⟨rfl, hfault, hfault⟩
  · have hframe := exec_frame hexec
    exact ⟨hframe.params, hfault, hframe.fault.trans hfault⟩

theorem Frame.byte_of_unmapped {i : Instr} {s t : State} (hframe : Frame i s t) {a : Word}
    (ha : s.mapped .store a = false) : t.byte a = s.byte a :=
  hframe.byte_of_not_stored fun hstored => absurd (hframe.mapped a hstored) (by simp [ha])

/-- Settles O16: every byte stored has passed the check of R50. -/
theorem unmappedByteIsNeverWritten : Obligations.UnmappedByteIsNeverWritten := by
  unfold Obligations.UnmappedByteIsNeverWritten
  intro s t a h ha
  obtain ⟨_, rfl | ⟨i, _, hexec⟩⟩ := step_next h
  · rfl
  · exact (exec_frame hexec).byte_of_unmapped ha

/-! ## Modified code -/

/-- `dirty` accounts for the way from `s` to `t`: it has lost no word, and holds the word of every byte that differs. -/
structure Tracked (s t : State) : Prop where
  params : t.params = s.params
  grows : ∀ d ∈ s.dirty, d ∈ t.dirty
  holds : ∀ a, t.byte a ≠ s.byte a → (wordBase a).toNat ∈ t.dirty

theorem Tracked.refl (s : State) : Tracked s s := ⟨rfl, fun _ h => h, fun _ h => absurd rfl h⟩

theorem Tracked.trans {s t u : State} (hst : Tracked s t) (htu : Tracked t u) : Tracked s u := by
  refine ⟨htu.params.trans hst.params, fun d hd => htu.grows d (hst.grows d hd), fun a ha => ?_⟩
  by_cases hbyte : u.byte a = t.byte a
  · exact htu.grows _ (hst.holds a (hbyte ▸ ha))
  · exact htu.holds a hbyte

theorem Frame.tracked {i : Instr} {s t : State} (hframe : Frame i s t) : Tracked s t := by
  refine ⟨hframe.params, fun d hd => (hframe.mem_dirty d).mpr (.inl hd), fun a ha => ?_⟩
  have hstored : a ∈ (storesOf i s).map Prod.fst := by
    by_contra hnot
    exact ha (hframe.byte_of_not_stored hnot)
  obtain ⟨w, hw, rfl⟩ := List.mem_map.mp hstored
  exact (hframe.mem_dirty _).mpr (.inr ⟨w, hw, rfl⟩)

theorem step_tracked {s t : State} (h : step s = .next t) : Tracked s t := by
  obtain ⟨_, rfl | ⟨i, _, hexec⟩⟩ := step_next h
  · exact .refl t
  · exact (exec_frame hexec).tracked

/-- Settles O17: `dirty` accounts for every byte that one step changes. -/
theorem changedByteIsDirty : Obligations.ChangedByteIsDirty := by
  unfold Obligations.ChangedByteIsDirty
  exact fun s t h => ⟨(step_tracked h).grows, (step_tracked h).holds⟩

theorem enterFault_tracked (s : State) (f : Fault) : Tracked s (s.enterFault f) := by
  cases hfault : s.fault with
  | some r =>
    rw [s.enterFault_of_some f r hfault]
    exact .refl s
  | none =>
    rw [s.enterFault_of_none f hfault]
    exact ⟨rfl, fun _ h => h, fun _ h => absurd rfl h⟩

theorem settle_tracked (s : State) : Tracked s (settle s) := by
  unfold settle
  split
  · exact step_tracked ‹_›
  · exact enterFault_tracked s _
  · exact .refl s

theorem settleN_tracked (n : Nat) (s : State) : Tracked s (settleN n s) := by
  induction n generalizing s with
  | zero => exact .refl s
  | succ n ih => exact (settle_tracked s).trans (ih (settle s))

theorem wordBase_add_of_aligned {a : Word} {k : Nat} (h : a.toNat % 4 = 0) (hk : k < 4) :
    (wordBase (a + BitVec.ofNat 32 k)).toNat = a.toNat := by
  rw [wordBase_toNat, add_ofNat_sameWord (by omega)]
  omega

theorem State.word_congr {s t : State} {a : Word} (hparams : t.params = s.params)
    (h : ∀ k < 4, t.byte (a + BitVec.ofNat 32 k) = s.byte (a + BitVec.ofNat 32 k)) : t.word a = s.word a := by
  have h0 : t.byte (a + 0) = s.byte (a + 0) := h 0 (by decide)
  have h1 : t.byte (a + 1) = s.byte (a + 1) := h 1 (by decide)
  have h2 : t.byte (a + 2) = s.byte (a + 2) := h 2 (by decide)
  have h3 : t.byte (a + 3) = s.byte (a + 3) := h 3 (by decide)
  rw [add_zero] at h0
  rw [State.word, State.word, hparams, h0, h1, h2, h3]

theorem Tracked.mem_dirty_of_word_ne {s t : State} (h : Tracked s t) {a : Word} (halign : a.toNat % 4 = 0)
    (hword : t.word a ≠ s.word a) : a.toNat ∈ t.dirty := by
  by_contra hclean
  refine hword (State.word_congr h.params fun k hk => ?_)
  by_contra hbyte
  exact hclean (wordBase_add_of_aligned halign hk ▸ h.holds _ hbyte)

/-- Settles O18: a word that reads otherwise than at the start has a byte that differs, so it is in `dirty`. -/
theorem modifiedCodeIsNeverRun : Obligations.ModifiedCodeIsNeverRun := by
  unfold Obligations.ModifiedCodeIsNeverRun
  intro s n t hfault hpc halign hword
  have hdirty := (settleN_tracked n s).mem_dirty_of_word_ne halign hword
  exact step_of_fetchWord_error hfault hpc (State.fetchWord_modified halign hdirty)

/-! ## HI and LO under a running guard -/

theorem exec_hi_of_hiGuard {i : Instr} {s t : State} (h : exec i s = .next t) (hguard : s.hiGuard > 0) :
    t.hi = s.hi := by
  cases hwrites : writesHi i with
  | false => exact (exec_frame h).hi hwrites
  | true => exact absurd (h.symm.trans (exec_hiHazard hwrites hguard)) nofun

theorem exec_lo_of_loGuard {i : Instr} {s t : State} (h : exec i s = .next t) (hguard : s.loGuard > 0) :
    t.lo = s.lo := by
  cases hwrites : writesLo i with
  | false => exact (exec_frame h).lo hwrites
  | true =>
    by_cases hhi : writesHi i = true ∧ s.hiGuard > 0
    · exact absurd (h.symm.trans (exec_hiHazard hhi.left hhi.right)) nofun
    · have hdown : writesHi i = true → s.hiGuard = 0 := fun hw => by simpa [hw] using hhi
      exact absurd (h.symm.trans (exec_loHazard hwrites hguard hdown)) nofun

theorem step_hi_of_hiGuard {s t : State} (h : step s = .next t) (hguard : s.hiGuard > 0) : t.hi = s.hi := by
  obtain ⟨_, rfl | ⟨i, _, hexec⟩⟩ := step_next h
  · rfl
  · exact exec_hi_of_hiGuard hexec hguard

theorem step_lo_of_loGuard {s t : State} (h : step s = .next t) (hguard : s.loGuard > 0) : t.lo = s.lo := by
  obtain ⟨_, rfl | ⟨i, _, hexec⟩⟩ := step_next h
  · rfl
  · exact exec_lo_of_loGuard hexec hguard

/-- Settles O19: a step that would write under a running guard answers no next state. -/
theorem runningGuardKeepsHiLo : Obligations.RunningGuardKeepsHiLo := by
  unfold Obligations.RunningGuardKeepsHiLo
  exact fun s t h => ⟨step_hi_of_hiGuard h, step_lo_of_loGuard h⟩

theorem step_hiGuard_pos {s t : State} (h : step s = .next t) (hguard : s.hiGuard = 2) : t.hiGuard > 0 := by
  obtain ⟨_, rfl | ⟨i, _, hexec⟩⟩ := step_next h
  · omega
  by_cases hmfhi : ∃ rd, i = .mfhi rd
  · obtain ⟨rd, rfl⟩ := hmfhi
    have hstart := (exec_mfhi_guards hexec).left
    omega
  · have hrun := exec_hiGuard_of_not_mfhi hexec hmfhi
    omega

theorem step_loGuard_pos {s t : State} (h : step s = .next t) (hguard : s.loGuard = 2) : t.loGuard > 0 := by
  obtain ⟨_, rfl | ⟨i, _, hexec⟩⟩ := step_next h
  · omega
  by_cases hmflo : ∃ rd, i = .mflo rd
  · obtain ⟨rd, rfl⟩ := hmflo
    have hstart := (exec_mflo_guards hexec).right
    omega
  · have hrun := exec_loGuard_of_not_mflo hexec hmflo
    omega

/-- Settles O20: the move leaves its register and starts the guard at 2, so it still runs in each of the two steps
after. -/
theorem moveGuardsTwoInstructions : Obligations.MoveGuardsTwoInstructions := by
  unfold Obligations.MoveGuardsTwoInstructions
  intro s s1 s2 s3 rd h1 h2 h3
  refine ⟨fun hruns => ?_, fun hruns => ?_⟩
  · have hexec : exec (.mfhi rd) s = .next s1 := (step_of_runs hruns).symm.trans h1
    have hguard := (exec_mfhi_guards hexec).left
    calc s3.hi
      _ = s2.hi := step_hi_of_hiGuard h3 (step_hiGuard_pos h2 hguard)
      _ = s1.hi := step_hi_of_hiGuard h2 (by omega)
      _ = s.hi := (exec_frame hexec).hi rfl
  · have hexec : exec (.mflo rd) s = .next s1 := (step_of_runs hruns).symm.trans h1
    have hguard := (exec_mflo_guards hexec).right
    calc s3.lo
      _ = s2.lo := step_lo_of_loGuard h3 (step_loGuard_pos h2 hguard)
      _ = s1.lo := step_lo_of_loGuard h2 (by omega)
      _ = s.lo := (exec_frame hexec).lo rfl

end Sys2Proof.Machine
end

section
/-! Proofs for the loads (O28 to O32): the value of the bytes at rising addresses, and the byte lanes of a partial-word
load, one transfer and the pair. -/

namespace Sys2Proof.Machine

/-! ## The bytes of an aligned access -/

theorem span_one (a : Word) : span a 1 = [a] := by simp [span]

theorem span_two (a : Word) : span a 2 = [a, a + 1] := by simp [span, List.range_succ]

theorem forall_mem_span_four {p : Word → Prop} {a : Word} (h : ∀ n : Nat, n < 4 → p (a + BitVec.ofNat 32 n)) :
    ∀ b ∈ span a 4, p b := by
  intro b hb
  obtain ⟨n, hn, rfl⟩ := List.mem_map.mp hb
  exact h n (List.mem_range.mp hn)

theorem joinHalf_toNat (e : Endian) (b0 b1 : Byte) : (joinHalf e b0 b1).toNat = halfValue e b0 b1 := by
  cases e <;> exact toNat_append_eq_add _ _

theorem joinWord_toNat (e : Endian) (b0 b1 b2 b3 : Byte) :
    (joinWord e b0 b1 b2 b3).toNat = wordValue e b0 b1 b2 b3 := by
  cases e with
  | big | little =>
    simp only [joinWord, wordValue, toNat_append_eq_add]
    omega

theorem State.half_toNat (s : State) (a : Word) :
    (s.half a).toNat = halfValue s.params.endian (s.byte a) (s.byte (a + 1)) := joinHalf_toNat _ _ _

theorem State.word_toNat (s : State) (a : Word) :
    (s.word a).toNat = wordValue s.params.endian (s.byte a) (s.byte (a + 1)) (s.byte (a + 2)) (s.byte (a + 3)) :=
  joinWord_toNat _ _ _ _ _

theorem half_toInt (v : Half) : v.toInt = if v.toNat < 2 ^ 15 then (v.toNat : Int) else v.toNat - 2 ^ 16 := by
  rw [BitVec.toInt_eq_toNat_cond]
  split <;> split <;> omega

/-- Settles O28: no alignment is asked for, and extending a byte keeps its value. -/
theorem byteLoads : Obligations.ByteLoads := by
  unfold Obligations.ByteLoads
  intro s rt rs imm hmapped
  have hbytes : ∀ b ∈ span (s.effAddr rs imm) 1, s.mapped .load b = true := by simpa [span_one] using hmapped
  have load (v : Word) := s.loadResult_effect (s.effAddr rs imm) 1 _ rt v (Nat.mod_one _) hbytes
  obtain ⟨t, hlb, htEffect⟩ := load ((s.byte (s.effAddr rs imm)).signExtend 32)
  obtain ⟨u, hlbu, huEffect⟩ := load ((s.byte (s.effAddr rs imm)).setWidth 32)
  exact ⟨⟨t, _, hlb, BitVec.toInt_signExtend_of_le (by decide), htEffect⟩,
    ⟨u, _, hlbu, BitVec.toNat_setWidth_of_le (by decide), huEffect⟩⟩

/-- Settles O29: the halfword is worth its two bytes in the byte order, and extending it keeps its value. -/
theorem halfLoads : Obligations.HalfLoads := by
  unfold Obligations.HalfLoads
  intro s rt rs imm a n heven hmapped hmapped'
  have hbytes : ∀ b ∈ span a 2, s.mapped .load b = true := by simpa [span_two] using ⟨hmapped, hmapped'⟩
  have hvalue : (s.half a).toNat = n := s.half_toNat a
  have load (v : Word) := s.loadResult_effect _ 2 _ rt v heven hbytes
  obtain ⟨t, hlh, htEffect⟩ := load ((s.half a).signExtend 32)
  obtain ⟨u, hlhu, huEffect⟩ := load ((s.half a).setWidth 32)
  refine ⟨⟨t, _, hlh, ?_, htEffect⟩, ⟨u, _, hlhu, ?_, huEffect⟩⟩
  · rw [BitVec.toInt_signExtend_of_le (by decide), half_toInt, hvalue]
  · rw [BitVec.toNat_setWidth_of_le (by decide), hvalue]

/-- Settles O30: the word is worth its four bytes in the byte order. -/
theorem wordLoad : Obligations.WordLoad := by
  unfold Obligations.WordLoad
  intro s rt rs imm a halign hmapped
  obtain ⟨t, hlw, heffect⟩ := s.loadResult_effect a 4 _ rt (s.word a) halign (forall_mem_span_four hmapped)
  exact ⟨t, _, hlw, heffect, s.word_toNat a⟩

/-! ## One byte lane -/

theorem getLsbD_byteLane (v : Word) (j n : Nat) :
    (byteLane v j).getLsbD n = (decide (n < 8) && v.getLsbD (8 * j + n)) := by
  simp [byteLane]

theorem getLsbD_laneMask (n : Nat) : (0xFF#32).getLsbD n = decide (n < 8) := by
  have hmask : 0xFF#32 = (BitVec.allOnes 8).setWidth 32 := by decide
  rw [hmask, BitVec.getLsbD_setWidth, BitVec.getLsbD_allOnes]
  grind

theorem getLsbD_setByteLane (v : Word) (b : Byte) (i : Nat) {m : Nat} (hm : m < 32) :
    (setByteLane v i b).getLsbD m = if 8 * i ≤ m ∧ m < 8 * i + 8 then b.getLsbD (m - 8 * i) else v.getLsbD m := by
  have hmask := getLsbD_laneMask (m - 8 * i)
  simp only [setByteLane, BitVec.getLsbD_or, BitVec.getLsbD_and, BitVec.getLsbD_not, BitVec.getLsbD_shiftLeft,
    BitVec.getLsbD_setWidth, hmask]
  by_cases hle : 8 * i ≤ m
  · by_cases hlt : m < 8 * i + 8
    · simp [hm, hle, hlt, show ¬m < 8 * i by omega, show m - 8 * i < 8 by omega, show m - 8 * i < 32 by omega]
    · simp [hm, hle, hlt, show ¬m < 8 * i by omega, show ¬m - 8 * i < 8 by omega,
        BitVec.getLsbD_of_ge b (m - 8 * i) (by omega)]
  · simp [hm, hle, show m < 8 * i by omega]

/-- A lane that is set holds the byte, and the other lanes are as before. -/
theorem byteLane_setByteLane (v : Word) (b : Byte) {i j : Nat} (hj : j < 4) :
    byteLane (setByteLane v i b) j = if i = j then b else byteLane v j := by
  refine BitVec.eq_of_getLsbD_eq fun n hn => ?_
  rw [getLsbD_byteLane, getLsbD_setByteLane v b i (by omega)]
  by_cases hij : i = j
  · subst hij
    simp [hn]
  · have hother : ¬(8 * i ≤ 8 * j + n ∧ 8 * j + n < 8 * i + 8) := by omega
    simp [hij, hother, getLsbD_byteLane]

/-! ## The lanes of a partial-word transfer -/

theorem mem_lanesDown {n : Nat} (address : Nat → Word) (b : Word) (i : Nat) (hn : n ≤ 4) :
    (b, i) ∈ (List.range n).map (fun m => (address m, 3 - m)) ↔ 4 - n ≤ i ∧ i < 4 ∧ b = address (3 - i) := by
  rw [List.mem_map]
  constructor
  · rintro ⟨m, hm, heq⟩
    rw [List.mem_range] at hm
    obtain ⟨rfl, rfl⟩ := Prod.mk.inj heq
    exact ⟨by omega, by omega, by rw [Nat.sub_sub_self (by omega)]⟩
  · rintro ⟨hle, hlt, rfl⟩
    exact ⟨3 - i, List.mem_range.mpr (by omega), by rw [Nat.sub_sub_self (by omega)]⟩

theorem mem_lanesUp {n : Nat} (address : Nat → Word) (b : Word) (i : Nat) :
    (b, i) ∈ (List.range n).map (fun m => (address m, m)) ↔ i < n ∧ b = address i := by
  simp only [List.mem_map, List.mem_range, Prod.mk.injEq]
  constructor
  · rintro ⟨m, hm, rfl, rfl⟩
    exact ⟨hm, rfl⟩
  · rintro ⟨hi, rfl⟩
    exact ⟨i, hi, rfl, rfl⟩

theorem mem_leftLanes_big (a b : Word) (i : Nat) :
    (b, i) ∈ leftLanes .big a ↔ a.toNat % 4 ≤ i ∧ i < 4 ∧ b = a + BitVec.ofNat 32 (3 - i) := by
  refine (mem_lanesDown _ b i (Nat.sub_le _ _)).trans (and_congr_left' ?_)
  omega

theorem mem_leftLanes_little (a b : Word) (i : Nat) :
    (b, i) ∈ leftLanes .little a ↔ 3 ≤ i + a.toNat % 4 ∧ i < 4 ∧ b = a - BitVec.ofNat 32 (3 - i) := by
  refine (mem_lanesDown _ b i (by omega)).trans (and_congr_left' ?_)
  omega

theorem mem_rightLanes_big (a b : Word) (i : Nat) :
    (b, i) ∈ rightLanes .big a ↔ i ≤ a.toNat % 4 ∧ i < 4 ∧ b = a - BitVec.ofNat 32 i := by
  refine (mem_lanesUp _ b i).trans (.trans (and_congr_left' ?_) and_assoc)
  omega

theorem mem_rightLanes_little (a b : Word) (i : Nat) :
    (b, i) ∈ rightLanes .little a ↔ i + a.toNat % 4 ≤ 3 ∧ i < 4 ∧ b = a + BitVec.ofNat 32 i := by
  refine (mem_lanesUp _ b i).trans (.trans (and_congr_left' ?_) and_assoc)
  omega

/-! ## The register of a partial-word load -/

theorem State.mergeLanes_cons (s : State) (p : Word × Nat) (lanes : List (Word × Nat)) (old : Word) :
    s.mergeLanes (p :: lanes) old = s.mergeLanes lanes (setByteLane old p.2 (s.byte p.1)) := rfl

theorem State.mergeLanes_append (s : State) (first second : List (Word × Nat)) (old : Word) :
    s.mergeLanes (first ++ second) old = s.mergeLanes second (s.mergeLanes first old) := List.foldl_append

theorem State.byteLane_mergeLanes_of_not_mem (s : State) {lanes : List (Word × Nat)} {j : Nat} (old : Word) (hj : j < 4)
    (h : ∀ b, (b, j) ∉ lanes) : byteLane (s.mergeLanes lanes old) j = byteLane old j := by
  induction lanes generalizing old with
  | nil => rfl
  | cons p lanes ih =>
    have hp : p.2 ≠ j := fun hpj => h p.1 (hpj ▸ List.mem_cons_self)
    have hlanes : ∀ b, (b, j) ∉ lanes := fun b hb => h b (List.mem_cons_of_mem _ hb)
    rw [State.mergeLanes_cons, ih _ hlanes, byteLane_setByteLane old _ hj, if_neg hp]

theorem State.byteLane_mergeLanes_of_mem (s : State) {lanes : List (Word × Nat)} {j : Nat} {a : Word} (old : Word)
    (hj : j < 4) (hmem : (a, j) ∈ lanes) (h : ∀ b, (b, j) ∈ lanes → b = a) :
    byteLane (s.mergeLanes lanes old) j = s.byte a := by
  induction lanes generalizing old with
  | nil => contradiction
  | cons p lanes ih =>
    rw [State.mergeLanes_cons]
    by_cases hlater : (a, j) ∈ lanes
    · exact ih _ hlater fun b hb => h b (List.mem_cons_of_mem _ hb)
    · obtain rfl : (a, j) = p := (List.mem_cons.mp hmem).resolve_right hlater
      have hnot : ∀ b, (b, j) ∉ lanes := fun b hb => hlater (h b (List.mem_cons_of_mem _ hb) ▸ hb)
      rw [s.byteLane_mergeLanes_of_not_mem _ hj hnot, byteLane_setByteLane old _ hj, if_pos rfl]

/-- A load of the lanes that `moved` picks, each from its own address, replaces those and keeps the others. -/
theorem State.byteLane_mergeLanes (s : State) {lanes : List (Word × Nat)} {moved : Nat → Prop} [DecidablePred moved]
    {address : Nat → Word} (old : Word) (h : ∀ b i, (b, i) ∈ lanes ↔ moved i ∧ i < 4 ∧ b = address i) {j : Nat}
    (hj : j < 4) :
    byteLane (s.mergeLanes lanes old) j = if moved j then s.byte (address j) else byteLane old j := by
  split
  · rename_i hmoved
    refine s.byteLane_mergeLanes_of_mem old hj ((h _ _).mpr ⟨hmoved, hj, rfl⟩) fun b hb => ?_
    obtain ⟨_, _, haddr⟩ := (h b j).mp hb
    exact haddr
  · rename_i hkept
    exact s.byteLane_mergeLanes_of_not_mem old hj fun b hb => hkept ((h b j).mp hb).left

/-- Settles O31: the lanes that each side moves, in each byte order. -/
theorem partialLoads : Obligations.PartialLoads := by
  unfold Obligations.PartialLoads
  intro s rt rs imm a k
  refine ⟨fun hmapped => ?_, fun hmapped => ?_⟩
  · obtain ⟨t, hlwl, heffect⟩ := s.loadResult_effect a 1 _ rt _ (Nat.mod_one _) hmapped
    refine ⟨t, _, hlwl, heffect, fun he j hj => ?_, fun he j hj => ?_⟩
    · rw [he]
      exact s.byteLane_mergeLanes _ (mem_leftLanes_big a) hj
    · rw [he]
      exact s.byteLane_mergeLanes _ (mem_leftLanes_little a) hj
  · obtain ⟨t, hlwr, heffect⟩ := s.loadResult_effect a 1 _ rt _ (Nat.mod_one _) hmapped
    refine ⟨t, _, hlwr, heffect, fun he j hj => ?_, fun he j hj => ?_⟩
    · rw [he]
      exact s.byteLane_mergeLanes _ (mem_rightLanes_big a) hj
    · rw [he]
      exact s.byteLane_mergeLanes _ (mem_rightLanes_little a) hj

/-! ## The pair of partial-word transfers (R113) -/

/-- Where the byte of lane `i` of the word at `a` stands in memory (R42). -/
def lanePlace (e : Endian) (a : Word) (i : Nat) : Word :=
  match e with
  | .big => a + BitVec.ofNat 32 (3 - i)
  | .little => a + BitVec.ofNat 32 i

/-- The address of the left half of a pair for the word at `a`. -/
def pairLeft (e : Endian) (a : Word) : Word := if e = .big then a else a + 3

/-- The address of the right half of a pair for the word at `a`. -/
def pairRight (e : Endian) (a : Word) : Word := if e = .big then a + 3 else a

theorem State.word_eq_of_lanes (s : State) {a v : Word}
    (h : ∀ i, i < 4 → byteLane v i = s.byte (lanePlace s.params.endian a i)) : s.word a = v := by
  refine joinWord_of_wordBytes ?_
  cases he : s.params.endian with
  | big | little => simp [wordBytes, h, he, lanePlace]

theorem add_three_sub (a : Word) {i : Nat} (hi : i < 4) : a + 3 - BitVec.ofNat 32 i = a + BitVec.ofNat 32 (3 - i) := by
  interval_cases i <;> bv_omega

theorem add_three_toNat_mod (a : Word) : (a + 3).toNat % 4 = (a.toNat + 3) % 4 := by
  bv_omega

/-- The two halves of a pair move all four lanes. -/
theorem mem_pairLanes (e : Endian) (a b : Word) (i : Nat) :
    (b, i) ∈ leftLanes e (pairLeft e a) ∨ (b, i) ∈ rightLanes e (pairRight e a) ↔ i < 4 ∧ b = lanePlace e a i := by
  cases e with
  | big =>
    rw [pairLeft, pairRight, if_pos rfl, if_pos rfl, mem_leftLanes_big, mem_rightLanes_big, add_three_toNat_mod]
    constructor
    · rintro (⟨_, hi, rfl⟩ | ⟨_, hi, rfl⟩)
      · exact ⟨hi, rfl⟩
      · exact ⟨hi, add_three_sub a hi⟩
    · rintro ⟨hi, rfl⟩
      by_cases hleft : a.toNat % 4 ≤ i
      · exact .inl ⟨hleft, hi, rfl⟩
      · exact .inr ⟨by omega, hi, (add_three_sub a hi).symm⟩
  | little =>
    have hplace (hi : i < 4) : a + 3 - BitVec.ofNat 32 (3 - i) = a + BitVec.ofNat 32 i := by
      rw [add_three_sub a (by omega), Nat.sub_sub_self (by omega)]
    rw [pairLeft, pairRight, if_neg nofun, if_neg nofun, mem_leftLanes_little, mem_rightLanes_little,
      add_three_toNat_mod]
    constructor
    · rintro (⟨_, hi, rfl⟩ | ⟨_, hi, rfl⟩)
      · exact ⟨hi, hplace hi⟩
      · exact ⟨hi, rfl⟩
    · rintro ⟨hi, rfl⟩
      by_cases hright : i + a.toNat % 4 ≤ 3
      · exact .inr ⟨hright, hi, rfl⟩
      · exact .inl ⟨by omega, hi, (hplace hi).symm⟩

theorem lanePlace_mapped {s : State} {k : AccessKind} {e : Endian} {a : Word} {i : Nat} (hi : i < 4)
    (h : ∀ n : Nat, n < 4 → s.mapped k (a + BitVec.ofNat 32 n) = true) : s.mapped k (lanePlace e a i) = true := by
  cases e with
  | big => exact h (3 - i) (by omega)
  | little => exact h i hi

theorem State.mapped_congr {s t : State} (h : t.params = s.params) (k : AccessKind) (a : Word) :
    t.mapped k a = s.mapped k a := by
  rw [State.mapped, State.mapped, h]

theorem State.effAddr_congr {s t : State} {rs : Reg} (h : t.x rs = s.x rs) (imm : Half) :
    t.effAddr rs imm = s.effAddr rs imm := by
  rw [State.effAddr, State.effAddr, h]

theorem State.mergeLanes_congr {s t : State} (h : ∀ a, t.byte a = s.byte a) (lanes : List (Word × Nat)) (old : Word) :
    t.mergeLanes lanes old = s.mergeLanes lanes old := by
  simp only [State.mergeLanes, h]

/-- lwl and lwr as one shape: the load of the lanes that a side of the aligned word moves. -/
def State.partLoad (s : State) (lanesAt : Endian → Word → List (Word × Nat)) (rt rs : Reg) (imm : Half) : Out :=
  let lanes := lanesAt s.params.endian (s.effAddr rs imm)
  s.loadResult (s.effAddr rs imm) 1 (lanes.map Prod.fst) rt (s.mergeLanes lanes (s.x rt))

theorem exec_lwl (rt rs : Reg) (imm : Half) (s : State) :
    exec (.lwl rt rs imm) s = s.partLoad leftLanes rt rs imm := rfl

theorem exec_lwr (rt rs : Reg) (imm : Half) (s : State) :
    exec (.lwr rt rs imm) s = s.partLoad rightLanes rt rs imm := rfl

theorem State.partLoad_effect (s : State) (lanesAt : Endian → Word → List (Word × Nat)) (rt rs : Reg) (imm : Half)
    (h : ∀ b i, (b, i) ∈ lanesAt s.params.endian (s.effAddr rs imm) → s.mapped .load b = true) :
    ∃ t, s.partLoad lanesAt rt rs imm = .next t ∧
      ResultEffect s t rt (s.mergeLanes (lanesAt s.params.endian (s.effAddr rs imm)) (s.x rt)) := by
  refine s.loadResult_effect _ 1 _ rt _ (Nat.mod_one _) fun b hb => ?_
  obtain ⟨p, hp, rfl⟩ := List.mem_map.mp hb
  exact h p.1 p.2 hp

/-- Two partial loads into one register that move all four lanes of the word at `a` between them load that word. -/
theorem State.partLoad_pair (s : State) {firstAt secondAt : Endian → Word → List (Word × Nat)} {rt rs : Reg}
    {imm imm' : Half} {a : Word} (hrt : rt ≠ 0) (hne : rt ≠ rs)
    (hmapped : ∀ n : Nat, n < 4 → s.mapped .load (a + BitVec.ofNat 32 n) = true)
    (hlanes : ∀ b i, (b, i) ∈ firstAt s.params.endian (s.effAddr rs imm) ∨
      (b, i) ∈ secondAt s.params.endian (s.effAddr rs imm') ↔ i < 4 ∧ b = lanePlace s.params.endian a i) :
    ∃ t u, s.partLoad firstAt rt rs imm = .next t ∧ t.partLoad secondAt rt rs imm' = .next u ∧ u.x rt = s.word a := by
  have hload : ∀ b i, i < 4 ∧ b = lanePlace s.params.endian a i → s.mapped .load b = true :=
    fun b i ⟨hi, hb⟩ => hb ▸ lanePlace_mapped hi hmapped
  obtain ⟨t, ht, ⟨hres, hregs⟩, _, ⟨hbyte, _⟩, _, ⟨hparams, _⟩, _⟩ :=
    s.partLoad_effect firstAt rt rs imm fun b i hb => hload b i ((hlanes b i).mp (.inl hb))
  have haddr : t.effAddr rs imm' = s.effAddr rs imm' := State.effAddr_congr (hregs rs (.inl hne.symm)) imm'
  obtain ⟨u, hu, ⟨hres', _⟩, _⟩ := t.partLoad_effect secondAt rt rs imm' fun b i hb => by
    rw [hparams, haddr] at hb
    exact (State.mapped_congr hparams _ _).trans (hload b i ((hlanes b i).mp (.inr hb)))
  refine ⟨t, u, ht, hu, (s.word_eq_of_lanes fun i hi => ?_).symm⟩
  rw [hres' hrt, hres hrt, hparams, haddr, State.mergeLanes_congr hbyte, ← s.mergeLanes_append,
    s.byteLane_mergeLanes (moved := fun _ => True) _ (by simpa using hlanes) hi, if_pos trivial]

theorem State.effAddr_pairLeft (s : State) {rs : Reg} {lo hi : Half} (h : s.effAddr rs hi = s.effAddr rs lo + 3) :
    s.effAddr rs (if s.params.endian = .big then lo else hi) = pairLeft s.params.endian (s.effAddr rs lo) := by
  rw [apply_ite (s.effAddr rs), h, pairLeft]

theorem State.effAddr_pairRight (s : State) {rs : Reg} {lo hi : Half} (h : s.effAddr rs hi = s.effAddr rs lo + 3) :
    s.effAddr rs (if s.params.endian = .big then hi else lo) = pairRight s.params.endian (s.effAddr rs lo) := by
  rw [apply_ite (s.effAddr rs), h, pairRight]

/-- Settles O32: in either order the two halves move all four lanes, each from its own byte. -/
theorem loadPairReadsUnalignedWord : Obligations.LoadPairReadsUnalignedWord := by
  unfold Obligations.LoadPairReadsUnalignedWord
  intro s rt rs lo hi a hrt hne hhi hmapped left right first second horder
  have hleft : left = .lwl rt rs (if s.params.endian = .big then lo else hi) :=
    (apply_ite (Instr.lwl rt rs) _ lo hi).symm
  have hright : right = .lwr rt rs (if s.params.endian = .big then hi else lo) :=
    (apply_ite (Instr.lwr rt rs) _ hi lo).symm
  have hlanes := mem_pairLanes s.params.endian a
  rw [← s.effAddr_pairLeft hhi, ← s.effAddr_pairRight hhi] at hlanes
  rw [← s.word_toNat a]
  rcases horder with ⟨rfl, rfl⟩ | ⟨rfl, rfl⟩ <;> simp only [hleft, hright, exec_lwl, exec_lwr]
  · obtain ⟨t, u, ht, hu, hword⟩ := s.partLoad_pair hrt hne hmapped hlanes
    exact ⟨t, u, ht, hu, congrArg _ hword⟩
  · obtain ⟨t, u, ht, hu, hword⟩ := s.partLoad_pair hrt hne hmapped fun b i => or_comm.trans (hlanes b i)
    exact ⟨t, u, ht, hu, congrArg _ hword⟩

end Sys2Proof.Machine
end

section
/-! Proofs for the stores (O33 to O38) and the unmapped accesses (O41): each byte at its own address inside one aligned
word, a word stored and loaded again, and the pair of partial-word stores. -/

namespace Sys2Proof.Machine

/-! ## An access that is not mapped -/

theorem State.loadResult_unmapped (s : State) {a : Word} {align : Nat} {bytes : List Word} (r : Reg) (v : Word)
    (halign : a.toNat % align = 0) (h : ∃ b ∈ bytes, s.mapped .load b = false) :
    s.loadResult a align bytes r v = .fault (.busError .load a) := by
  obtain ⟨b, hb, hmapped⟩ := h
  rw [State.loadResult, s.accessFault_unmapped .load a b align bytes halign hb hmapped]

theorem State.storeBytes_unmapped (s : State) {a : Word} {align : Nat} {ws : List (Word × Byte)}
    (halign : a.toNat % align = 0) (h : ∃ b ∈ ws.map Prod.fst, s.mapped .store b = false) :
    s.storeBytes a align ws = .fault (.busError .store a) := by
  obtain ⟨b, hb, hmapped⟩ := h
  rw [State.storeBytes, s.accessFault_unmapped .store a b align _ halign hb hmapped]

theorem map_fst_halfWrites (e : Endian) (a v : Word) : (halfWrites e a v).map Prod.fst = span a 2 := by
  cases e <;> rfl

theorem map_fst_laneBytes (lanes : List (Word × Nat)) (v : Word) :
    (laneBytes lanes v).map Prod.fst = lanes.map Prod.fst := by
  simp [laneBytes]

/-- Settles O41: the access is aligned, so the byte that is not mapped decides. -/
theorem unmappedAccessFaults : Obligations.UnmappedAccessFaults := by
  unfold Obligations.UnmappedAccessFaults
  intro s rt rs imm a noLoad noStore
  refine ⟨fun h => ?_, fun heven h => ?_, fun halign h => ?_, fun h => ?_, fun h => ?_, fun h => ?_, fun heven h => ?_,
    fun halign h => ?_, fun h => ?_, fun h => ?_⟩
  · have hspan : noLoad (span a 1) := span_one a ▸ h
    exact ⟨s.loadResult_unmapped rt _ (Nat.mod_one _) hspan, s.loadResult_unmapped rt _ (Nat.mod_one _) hspan⟩
  · have hspan : noLoad (span a 2) := span_two a ▸ h
    exact ⟨s.loadResult_unmapped rt _ heven hspan, s.loadResult_unmapped rt _ heven hspan⟩
  · exact s.loadResult_unmapped rt _ halign (span_four a ▸ h)
  · exact s.loadResult_unmapped rt _ (Nat.mod_one _) h
  · exact s.loadResult_unmapped rt _ (Nat.mod_one _) h
  · exact s.storeBytes_unmapped (Nat.mod_one _) h
  · exact s.storeBytes_unmapped heven (map_fst_halfWrites _ a _ ▸ span_two a ▸ h)
  · exact s.storeBytes_unmapped halign (map_fst_wordWrites _ a _ ▸ span_four a ▸ h)
  · exact s.storeBytes_unmapped (Nat.mod_one _) (map_fst_laneBytes _ _ ▸ h)
  · exact s.storeBytes_unmapped (Nat.mod_one _) (map_fst_laneBytes _ _ ▸ h)

/-! ## The bytes of a store -/

theorem wordBase_eq_iff (a b : Word) : wordBase a = wordBase b ↔ a.toNat / 4 = b.toNat / 4 := by
  rw [← BitVec.toNat_inj, wordBase_toNat, wordBase_toNat]
  omega

theorem wordBase_eq_self {a : Word} (h : a.toNat % 4 = 0) : wordBase a = a :=
  BitVec.eq_of_toNat_eq (wordBase_of_aligned h)

theorem wordBase_of_mem_span {a b : Word} {n : Nat} (h : a.toNat % 4 + n ≤ 4) (hb : b ∈ span a n) :
    wordBase b = wordBase a := by
  obtain ⟨i, hi, rfl⟩ := List.mem_map.mp hb
  have hi := List.mem_range.mp hi
  exact (wordBase_eq_iff _ _).mpr (add_ofNat_sameWord (by omega))

theorem ofNat_inj_of_lt {i j : Nat} (hi : i < 4) (hj : j < 4) (h : BitVec.ofNat 32 i = BitVec.ofNat 32 j) : i = j := by
  bv_omega

theorem span_nodup (a : Word) {n : Nat} (hn : n ≤ 4) : (span a n).Nodup := by
  refine List.Nodup.map_on (fun i hi j hj h => ?_) List.nodup_range
  rw [List.mem_range] at hi hj
  exact ofNat_inj_of_lt (by omega) (by omega) (add_left_cancel h)

theorem halfWrites_ne_nil (e : Endian) (a v : Word) : halfWrites e a v ≠ [] := by
  cases e <;> nofun

theorem wordWrites_ne_nil (e : Endian) (a v : Word) : wordWrites e a v ≠ [] := by
  cases e <;> nofun

theorem map_snd_halfWrites (e : Endian) (a v : Word) :
    (halfWrites e a v).map Prod.snd = halfBytes e (v.setWidth 16) := by
  cases e <;> rfl

theorem joinHalf_of_halfBytes {e : Endian} {v : Half} {b0 b1 : Byte} (h : [b0, b1] = halfBytes e v) :
    joinHalf e b0 b1 = v := by
  cases e with
  | big | little =>
    simp only [halfBytes, List.cons.injEq, and_true] at h
    obtain ⟨rfl, rfl⟩ := h
    exact (BitVec.extractLsb'_append_extractLsb'_eq_extractLsb' (by decide)).trans BitVec.extractLsb'_eq_self

theorem StoreEffect.map_byte {s t : State} {base : Word} {ws : List (Word × Byte)} (h : StoreEffect s t base ws) :
    (ws.map Prod.fst).map t.byte = ws.map Prod.snd := by
  obtain ⟨hbytes, _⟩ := h
  rw [List.map_map]
  exact List.map_congr_left hbytes

/-- Settles O33: one byte, in its own aligned word. -/
theorem byteStore : Obligations.ByteStore := by
  unfold Obligations.ByteStore
  intro s rt rs imm a hwf hmapped
  obtain ⟨t, hsb, heffect⟩ := s.storeBytes_effect a (wordBase a) 1 (byteWrites a (s.x rt)) (Nat.mod_one _)
    (by simpa [byteWrites] using hmapped) hwf (List.nodup_singleton a) (List.cons_ne_nil _ _) (by simp [byteWrites])
  have hbyte : t.byte a = (s.x rt).setWidth 8 := heffect.left _ List.mem_cons_self
  exact ⟨t, hsb, heffect, by rw [hbyte, BitVec.toNat_setWidth]⟩

/-- Settles O34: the two bytes join to the low half of the register, inside one aligned word. -/
theorem halfStore : Obligations.HalfStore := by
  unfold Obligations.HalfStore
  intro s rt rs imm a hwf heven hmapped hmapped'
  have hfst := map_fst_halfWrites s.params.endian a (s.x rt)
  obtain ⟨t, hsh, heffect⟩ := s.storeBytes_effect a (wordBase a) 2 (halfWrites s.params.endian a (s.x rt)) heven
    (by simpa [hfst, span_two] using ⟨hmapped, hmapped'⟩) hwf (hfst ▸ span_nodup a (by decide))
    (halfWrites_ne_nil _ a _) (fun b hb => wordBase_of_mem_span (by omega) (hfst ▸ hb))
  have hbytes : [t.byte a, t.byte (a + 1)] = halfBytes s.params.endian ((s.x rt).setWidth 16) := by
    rw [← map_snd_halfWrites _ a, ← heffect.map_byte, hfst, span_two]
    rfl
  exact ⟨t, hsh, heffect, by rw [← joinHalf_toNat, joinHalf_of_halfBytes hbytes, BitVec.toNat_setWidth]⟩

/-- Settles O35: the four bytes join to the register, and are an aligned word. -/
theorem wordStore : Obligations.WordStore := by
  unfold Obligations.WordStore
  intro s rt rs imm a hwf halign hmapped
  have hfst := map_fst_wordWrites s.params.endian a (s.x rt)
  obtain ⟨t, hsw, heffect⟩ := s.storeBytes_effect a a 4 (wordWrites s.params.endian a (s.x rt)) halign
    (hfst ▸ forall_mem_span_four hmapped) hwf (hfst ▸ span_four_nodup a)
    (wordWrites_ne_nil _ a _)
    (fun b hb => (wordBase_of_mem_span (by omega) (hfst ▸ hb)).trans (wordBase_eq_self halign))
  have hbytes : [t.byte a, t.byte (a + 1), t.byte (a + 2), t.byte (a + 3)] = wordBytes s.params.endian (s.x rt) := by
    rw [← map_snd_wordWrites _ a, ← heffect.map_byte, hfst, span_four]
    rfl
  exact ⟨t, hsw, heffect, by rw [← joinWord_toNat, joinWord_of_wordBytes hbytes]⟩

/-! ## The bytes of a partial-word store -/

theorem spanDown_nodup (a : Word) {n : Nat} (hn : n ≤ 4) :
    ((List.range n).map fun i => a - BitVec.ofNat 32 i).Nodup := by
  refine List.Nodup.map_on (fun i hi j hj h => ?_) List.nodup_range
  rw [List.mem_range] at hi hj
  exact ofNat_inj_of_lt (by omega) (by omega) (sub_right_injective h)

theorem leftLanes_nodup (e : Endian) (a : Word) : ((leftLanes e a).map Prod.fst).Nodup := by
  cases e with
  | big =>
    rw [leftLanes, List.map_map]
    exact span_nodup a (by omega)
  | little =>
    rw [leftLanes, List.map_map]
    exact spanDown_nodup a (by omega)

theorem rightLanes_nodup (e : Endian) (a : Word) : ((rightLanes e a).map Prod.fst).Nodup := by
  cases e with
  | big =>
    rw [rightLanes, List.map_map]
    exact spanDown_nodup a (by omega)
  | little =>
    rw [rightLanes, List.map_map]
    exact span_nodup a (by omega)

theorem leftLanes_ne_nil (e : Endian) (a : Word) : leftLanes e a ≠ [] := by
  cases e with
  | big => exact List.ne_nil_of_mem ((mem_leftLanes_big a _ 3).mpr ⟨by omega, by decide, rfl⟩)
  | little => exact List.ne_nil_of_mem ((mem_leftLanes_little a _ 3).mpr ⟨by omega, by decide, rfl⟩)

theorem rightLanes_ne_nil (e : Endian) (a : Word) : rightLanes e a ≠ [] := by
  cases e with
  | big => exact List.ne_nil_of_mem ((mem_rightLanes_big a _ 0).mpr ⟨by omega, by decide, rfl⟩)
  | little => exact List.ne_nil_of_mem ((mem_rightLanes_little a _ 0).mpr ⟨by omega, by decide, rfl⟩)

/-- A store of one side of the aligned word, byte lane by byte lane. -/
theorem State.storeLanes_effect (s : State) {lanes : List (Word × Nat)} {a : Word} (v : Word) (hwf : Memory.wf s.mem)
    (hmapped : ∀ b ∈ lanes.map Prod.fst, s.mapped .store b = true) (hnodup : (lanes.map Prod.fst).Nodup)
    (hne : lanes ≠ []) (hword : ∀ {p}, p ∈ lanes → p.1.toNat / 4 = a.toNat / 4) :
    ∃ t, s.storeBytes a 1 (laneBytes lanes v) = .next t ∧ StoreEffect s t (wordBase a) (laneBytes lanes v) ∧
      ∀ b i, (b, i) ∈ lanes → t.byte b = byteLane v i := by
  have hfst := map_fst_laneBytes lanes v
  obtain ⟨t, hstore, heffect⟩ := s.storeBytes_effect a (wordBase a) 1 (laneBytes lanes v) (Nat.mod_one _)
    (hfst ▸ hmapped) hwf (hfst ▸ hnodup) (by simpa [laneBytes] using hne) fun b hb => by
      obtain ⟨p, hp, rfl⟩ := List.mem_map.mp (hfst ▸ hb)
      exact (wordBase_eq_iff _ _).mpr (hword hp)
  exact ⟨t, hstore, heffect, fun b i hb => heffect.left _ (List.mem_map_of_mem hb)⟩

/-- Settles O36: the lanes that each side moves, in each byte order. -/
theorem partialStores : Obligations.PartialStores := by
  unfold Obligations.PartialStores
  intro s rt rs imm a k v hwf
  refine ⟨fun hmapped => ?_, fun hmapped => ?_⟩
  · obtain ⟨t, hswl, heffect, hbytes⟩ := s.storeLanes_effect v hwf hmapped (leftLanes_nodup _ a)
      (leftLanes_ne_nil _ a) leftLanes_sameWord
    refine ⟨t, hswl, heffect, fun he j hj hmoved => ?_, fun he j hj hmoved => ?_⟩
    · exact hbytes _ j (he ▸ (mem_leftLanes_big a _ j).mpr ⟨hmoved, hj, rfl⟩)
    · exact hbytes _ j (he ▸ (mem_leftLanes_little a _ j).mpr ⟨hmoved, hj, rfl⟩)
  · obtain ⟨t, hswr, heffect, hbytes⟩ := s.storeLanes_effect v hwf hmapped (rightLanes_nodup _ a)
      (rightLanes_ne_nil _ a) rightLanes_sameWord
    refine ⟨t, hswr, heffect, fun he j hj hmoved => ?_, fun he j hj hmoved => ?_⟩
    · exact hbytes _ j (he ▸ (mem_rightLanes_big a _ j).mpr ⟨hmoved, hj, rfl⟩)
    · exact hbytes _ j (he ▸ (mem_rightLanes_little a _ j).mpr ⟨hmoved, hj, rfl⟩)

/-! ## A store and then a load -/

/-- Settles O38: the load joins the bytes that the store cut the word into. -/
theorem loadReturnsStoredWord : Obligations.LoadReturnsStoredWord := by
  unfold Obligations.LoadReturnsStoredWord
  intro s t u rt rs rt' rs' imm imm' hwf hrt' haddr hsw hlw
  obtain ⟨_, ht⟩ := s.storeBytes_next t _ _ _ hsw
  have hregs : ∀ q, t.x q = s.x q := by simp [ht]
  obtain ⟨_, ⟨⟨hres, _⟩, _⟩, _⟩ := t.loadResult_next u _ _ _ _ _ hlw
  calc u.x rt'
    _ = t.word (t.effAddr rs' imm') := hres hrt'
    _ = t.word (s.effAddr rs imm) := by rw [State.effAddr_congr (hregs rs'), haddr]
    _ = (s.putBytes (wordWrites s.params.endian (s.effAddr rs imm) (s.x rt))).word (s.effAddr rs imm) := by
      rw [ht]
      rfl
    _ = s.x rt := s.putBytes_wordWrites_word _ _ hwf

/-! ## The pair of partial-word stores -/

/-- swl and swr as one shape: the store of the lanes that a side of the aligned word moves. -/
def State.partStore (s : State) (lanesAt : Endian → Word → List (Word × Nat)) (rt rs : Reg) (imm : Half) : Out :=
  s.storeBytes (s.effAddr rs imm) 1 (laneBytes (lanesAt s.params.endian (s.effAddr rs imm)) (s.x rt))

theorem exec_swl (rt rs : Reg) (imm : Half) (s : State) :
    exec (.swl rt rs imm) s = s.partStore leftLanes rt rs imm := rfl

theorem exec_swr (rt rs : Reg) (imm : Half) (s : State) :
    exec (.swr rt rs imm) s = s.partStore rightLanes rt rs imm := rfl

theorem State.storeBytes_of_mapped (s : State) {a : Word} {align : Nat} {ws : List (Word × Byte)}
    (halign : a.toNat % align = 0) (h : ∀ b ∈ ws.map Prod.fst, s.mapped .store b = true) :
    s.storeBytes a align ws = .next (s.putBytes ws).advance := by
  rw [State.storeBytes, (s.accessFault_eq_none .store a align _).mpr ⟨halign, h⟩]

theorem lanePlace_inj {e : Endian} {a : Word} {i j : Nat} (hi : i < 4) (hj : j < 4)
    (h : lanePlace e a i = lanePlace e a j) : i = j := by
  cases e with
  | big =>
    have hsub := ofNat_inj_of_lt (by omega) (by omega) (add_left_cancel h)
    omega
  | little => exact ofNat_inj_of_lt hi hj (add_left_cancel h)

theorem lanePlace_mem_span {e : Endian} {a : Word} {i : Nat} (hi : i < 4) : lanePlace e a i ∈ span a 4 := by
  cases e with
  | big => exact mem_span (by omega)
  | little => exact mem_span hi

/-- The last write to an address decides, and when all of them agree so does any. -/
theorem lastWritten_of_agree {ws : List (Word × Byte)} {a : Word} {b old : Byte} (hagree : ∀ c, (a, c) ∈ ws → c = b)
    (h : old = b ∨ (a, b) ∈ ws) : lastWritten ws a old = b := by
  induction ws generalizing old with
  | nil => simpa using h
  | cons w ws ih =>
    rw [lastWritten_cons]
    refine ih (fun c hc => hagree c (List.mem_cons_of_mem _ hc)) ?_
    by_cases hw : w.1 = a
    · subst hw
      exact .inl (if_pos rfl |>.trans (hagree w.2 List.mem_cons_self))
    · rw [if_neg hw]
      refine h.imp_right fun hin => (List.mem_cons.mp hin).resolve_left ?_
      rintro rfl
      exact hw rfl

theorem mem_laneBytes_lanePlace {lanes : List (Word × Nat)} {e : Endian} {a v : Word} {i : Nat} {c : Byte} (hi : i < 4)
    (hlanes : ∀ b j, (b, j) ∈ lanes → j < 4 ∧ b = lanePlace e a j) (h : (lanePlace e a i, c) ∈ laneBytes lanes v) :
    c = byteLane v i := by
  obtain ⟨p, hp, heq⟩ := List.mem_map.mp h
  obtain ⟨haddr, rfl⟩ := Prod.mk.inj heq
  obtain ⟨hj, hplace⟩ := hlanes p.1 p.2 hp
  rw [lanePlace_inj hj hi (hplace.symm.trans haddr)]

theorem fst_mem_span_of_lanePlace {lanes : List (Word × Nat)} {e : Endian} {a b v : Word}
    (hlanes : ∀ b j, (b, j) ∈ lanes → j < 4 ∧ b = lanePlace e a j) (h : b ∈ (laneBytes lanes v).map Prod.fst) :
    b ∈ span a 4 := by
  rw [map_fst_laneBytes] at h
  obtain ⟨p, hp, rfl⟩ := List.mem_map.mp h
  obtain ⟨hj, hplace⟩ := hlanes p.1 p.2 hp
  exact hplace ▸ lanePlace_mem_span hj

/-- The two halves write every lane of the word at `a`, each to its own place, and nothing beside it. -/
theorem State.putBytes_pair (s : State) {first second : List (Word × Nat)} {a : Word} (v : Word) (hwf : Memory.wf s.mem)
    (hlanes : ∀ b i, (b, i) ∈ first ∨ (b, i) ∈ second ↔ i < 4 ∧ b = lanePlace s.params.endian a i) :
    let u := ((s.putBytes (laneBytes first v)).advance.putBytes (laneBytes second v)).advance
    u.word a = v ∧ ∀ b, b ∉ span a 4 → u.byte b = s.byte b := by
  intro u
  have hfirst := fun b i hb => (hlanes b i).mp (.inl hb)
  have hsecond := fun b i hb => (hlanes b i).mp (.inr hb)
  have hparams : u.params = s.params := by simp [u]
  have hwf' : Memory.wf (s.putBytes (laneBytes first v)).advance.mem := s.putBytes_wf _ hwf
  have hbyte : ∀ b, u.byte b = lastWritten (laneBytes second v) b (lastWritten (laneBytes first v) b (s.byte b)) := by
    intro b
    rw [State.advance_byte, State.putBytes_byte _ _ _ hwf', State.advance_byte, State.putBytes_byte _ _ _ hwf]
  refine ⟨u.word_eq_of_lanes fun i hi => ?_, fun b hb => ?_⟩
  · rw [hparams, hbyte]
    refine (lastWritten_of_agree (fun c hc => mem_laneBytes_lanePlace hi hsecond hc) ?_).symm
    rcases (hlanes _ i).mpr ⟨hi, rfl⟩ with hin | hin
    · exact .inl (lastWritten_of_agree (fun c hc => mem_laneBytes_lanePlace hi hfirst hc)
        (.inr (List.mem_map_of_mem hin)))
    · exact .inr (List.mem_map_of_mem hin)
  · rw [State.advance_byte, State.putBytes_byte_other _ _ _ fun h => hb (fst_mem_span_of_lanePlace hsecond h),
      State.advance_byte, State.putBytes_byte_other _ _ _ fun h => hb (fst_mem_span_of_lanePlace hfirst h)]

theorem State.partStore_of_mapped (s : State) {lanesAt : Endian → Word → List (Word × Nat)} {rt rs : Reg} {imm : Half}
    (h : ∀ b i, (b, i) ∈ lanesAt s.params.endian (s.effAddr rs imm) → s.mapped .store b = true) :
    s.partStore lanesAt rt rs imm =
      .next (s.putBytes (laneBytes (lanesAt s.params.endian (s.effAddr rs imm)) (s.x rt))).advance := by
  refine s.storeBytes_of_mapped (Nat.mod_one _) fun b hb => ?_
  rw [map_fst_laneBytes] at hb
  obtain ⟨p, hp, rfl⟩ := List.mem_map.mp hb
  exact h p.1 p.2 hp

/-- Two partial stores of one register that move all four lanes of the word at `a` between them store that word. -/
theorem State.partStore_pair (s : State) {firstAt secondAt : Endian → Word → List (Word × Nat)} {rt rs : Reg}
    {imm imm' : Half} {a : Word} (hwf : Memory.wf s.mem)
    (hmapped : ∀ n : Nat, n < 4 → s.mapped .store (a + BitVec.ofNat 32 n) = true)
    (hlanes : ∀ b i, (b, i) ∈ firstAt s.params.endian (s.effAddr rs imm) ∨
      (b, i) ∈ secondAt s.params.endian (s.effAddr rs imm') ↔ i < 4 ∧ b = lanePlace s.params.endian a i) :
    ∃ t u, s.partStore firstAt rt rs imm = .next t ∧ t.partStore secondAt rt rs imm' = .next u ∧
      wordValue s.params.endian (u.byte a) (u.byte (a + 1)) (u.byte (a + 2)) (u.byte (a + 3)) = (s.x rt).toNat ∧
      ∀ b, b ∉ span a 4 → u.byte b = s.byte b := by
  have hstore : ∀ b i, i < 4 ∧ b = lanePlace s.params.endian a i → s.mapped .store b = true :=
    fun b i ⟨hi, hb⟩ => hb ▸ lanePlace_mapped hi hmapped
  have hfirst := s.partStore_of_mapped (rt := rt) fun b i hb => hstore b i ((hlanes b i).mp (.inl hb))
  obtain ⟨hword, hother⟩ := s.putBytes_pair (s.x rt) hwf hlanes
  obtain ⟨t, ht⟩ : ∃ t, t = (s.putBytes (laneBytes (firstAt s.params.endian (s.effAddr rs imm)) (s.x rt))).advance :=
    ⟨_, rfl⟩
  rw [← ht] at hfirst hword hother
  have hparams : t.params = s.params := by simp [ht]
  have hregs : ∀ q, t.x q = s.x q := by simp [ht]
  have haddr : t.effAddr rs imm' = s.effAddr rs imm' := State.effAddr_congr (hregs rs) imm'
  have hsecond := t.partStore_of_mapped (lanesAt := secondAt) (rt := rt) (rs := rs) (imm := imm') fun b i hb => by
    rw [hparams, haddr] at hb
    exact (State.mapped_congr hparams _ _).trans (hstore b i ((hlanes b i).mp (.inr hb)))
  rw [hparams, haddr, hregs rt] at hsecond
  have hvalue := congrArg BitVec.toNat hword
  rw [State.word_toNat, State.advance_params, State.putBytes_params, hparams] at hvalue
  exact ⟨t, _, hfirst, hsecond, hvalue, hother⟩

/-- Settles O37: in either order the two halves write all four lanes, each to its own byte. -/
theorem storePairWritesUnalignedWord : Obligations.StorePairWritesUnalignedWord := by
  unfold Obligations.StorePairWritesUnalignedWord
  intro s rt rs lo hi a hwf hhi hmapped left right first second horder
  have hleft : left = .swl rt rs (if s.params.endian = .big then lo else hi) :=
    (apply_ite (Instr.swl rt rs) _ lo hi).symm
  have hright : right = .swr rt rs (if s.params.endian = .big then hi else lo) :=
    (apply_ite (Instr.swr rt rs) _ hi lo).symm
  have hlanes := mem_pairLanes s.params.endian a
  rw [← s.effAddr_pairLeft hhi, ← s.effAddr_pairRight hhi] at hlanes
  rcases horder with ⟨rfl, rfl⟩ | ⟨rfl, rfl⟩ <;> simp only [hleft, hright, exec_swl, exec_swr]
  · exact s.partStore_pair hwf hmapped hlanes
  · exact s.partStore_pair hwf hmapped fun b i => or_comm.trans (hlanes b i)

end Sys2Proof.Machine
end

section
/-! Proofs for arithmetic, logic and shifts (O42 to O49): what the word operations are worth as numbers, and bit by
bit. -/

namespace Sys2Proof.Machine

/-! ## Signed overflow (R120) -/

theorem overflowAdd_eq_saddOverflow (v w : Word) : overflowAdd v w = v.saddOverflow w :=
  (BitVec.saddOverflow_eq v w).symm

theorem overflowSub_eq_ssubOverflow (v w : Word) : overflowSub v w = v.ssubOverflow w := by
  rw [overflowSub, BitVec.ssubOverflow_eq]
  cases v.msb <;> cases w.msb <;> simp

/-- The numbers that 32 bits can hold, signed. -/
def FitsSigned (n : Int) : Prop := -2 ^ 31 ≤ n ∧ n ≤ 2 ^ 31 - 1

theorem overflowAdd_eq_true_iff (v w : Word) : overflowAdd v w = true ↔ ¬FitsSigned (v.toInt + w.toInt) := by
  rw [overflowAdd_eq_saddOverflow, BitVec.saddOverflow, Bool.or_eq_true, decide_eq_true_eq, decide_eq_true_eq,
    FitsSigned]
  omega

theorem overflowSub_eq_true_iff (v w : Word) : overflowSub v w = true ↔ ¬FitsSigned (v.toInt - w.toInt) := by
  rw [overflowSub_eq_ssubOverflow, BitVec.ssubOverflow, Bool.or_eq_true, decide_eq_true_eq, decide_eq_true_eq,
    FitsSigned]
  omega

theorem toInt_add_of_fits {v w : Word} (h : FitsSigned (v.toInt + w.toInt)) : (v + w).toInt = v.toInt + w.toInt :=
  BitVec.toInt_add_of_not_saddOverflow
    (overflowAdd_eq_saddOverflow v w ▸ fun ho => (overflowAdd_eq_true_iff v w).mp ho h)

theorem toInt_sub_of_fits {v w : Word} (h : FitsSigned (v.toInt - w.toInt)) : (v - w).toInt = v.toInt - w.toInt :=
  BitVec.toInt_sub_of_not_ssubOverflow
    (overflowSub_eq_ssubOverflow v w ▸ fun ho => (overflowSub_eq_true_iff v w).mp ho h)

theorem State.resultUnless_effect (s : State) {overflow : Bool} (r : Reg) (v : Word) (h : ¬overflow = true) :
    ∃ t, s.resultUnless overflow r v = .next t ∧ ResultEffect s t r v := by
  rw [State.resultUnless, if_neg h]
  exact s.result_effect r v

theorem State.resultUnless_overflow (s : State) {overflow : Bool} (r : Reg) (v : Word) (h : overflow = true) :
    s.resultUnless overflow r v = .fault .integerOverflow := if_pos h

theorem State.addResult_exact (s : State) (r : Reg) {v w : Word} (h : FitsSigned (v.toInt + w.toInt)) :
    ∃ t u, s.resultUnless (overflowAdd v w) r (v + w) = .next t ∧ u.toInt = v.toInt + w.toInt ∧
      ResultEffect s t r u := by
  obtain ⟨t, ht, heffect⟩ :=
    s.resultUnless_effect r (v + w) fun ho => (overflowAdd_eq_true_iff v w).mp ho h
  exact ⟨t, _, ht, toInt_add_of_fits h, heffect⟩

theorem State.subResult_exact (s : State) (r : Reg) {v w : Word} (h : FitsSigned (v.toInt - w.toInt)) :
    ∃ t u, s.resultUnless (overflowSub v w) r (v - w) = .next t ∧ u.toInt = v.toInt - w.toInt ∧
      ResultEffect s t r u := by
  obtain ⟨t, ht, heffect⟩ :=
    s.resultUnless_effect r (v - w) fun ho => (overflowSub_eq_true_iff v w).mp ho h
  exact ⟨t, _, ht, toInt_sub_of_fits h, heffect⟩

/-- Settles O42: the overflow condition is false exactly where the result fits, and then the sum is exact. -/
theorem signedResultIsExact : Obligations.SignedResultIsExact := by
  unfold Obligations.SignedResultIsExact
  intro s rd rs rt imm fits
  refine ⟨s.addResult_exact rd, s.subResult_exact rd, ?_⟩
  rw [← sextImm_toInt]
  exact s.addResult_exact rd

/-- Settles O43: the overflow condition is true exactly where the result does not fit. -/
theorem signedOverflowFaults : Obligations.SignedOverflowFaults := by
  unfold Obligations.SignedOverflowFaults
  intro s rd rs rt imm fits
  refine ⟨fun h => ?_, fun h => ?_, fun h => ?_⟩
  · exact s.resultUnless_overflow rd _ ((overflowAdd_eq_true_iff _ _).mpr h)
  · exact s.resultUnless_overflow rd _ ((overflowSub_eq_true_iff _ _).mpr h)
  · rw [← sextImm_toInt] at h
    exact s.resultUnless_overflow rd _ ((overflowAdd_eq_true_iff _ _).mpr h)

/-! ## Results that are always written -/

theorem toNat_sub_eq_emod (v w : Word) : ((v - w).toNat : Int) = (v.toNat - w.toNat : Int) % 2 ^ 32 := by
  have hw := w.isLt
  rw [BitVec.toNat_sub]
  omega

/-- Settles O44: word arithmetic is arithmetic modulo 2^32. -/
theorem unsignedArithmeticWraps : Obligations.UnsignedArithmeticWraps := by
  unfold Obligations.UnsignedArithmeticWraps
  intro s rd rs rt imm
  obtain ⟨t, ht, hteffect⟩ := s.result_effect rd (s.x rs + s.x rt)
  obtain ⟨u, hu, hueffect⟩ := s.result_effect rd (s.x rs - s.x rt)
  obtain ⟨v, hv, hveffect⟩ := s.result_effect rd (s.x rs + sextImm imm)
  refine ⟨⟨t, _, ht, BitVec.toNat_add _ _, hteffect⟩, ⟨u, _, hu, toNat_sub_eq_emod _ _, hueffect⟩,
    ⟨v, _, hv, ?_, hveffect⟩⟩
  rw [toNat_add_eq_emod, sextImm_toInt]

theorem getLsbD_zextImm (imm : Half) (n : Nat) :
    (zextImm imm).getLsbD n = (decide (n < 16) && imm.getLsbD n) := by
  rw [zextImm, BitVec.getLsbD_setWidth]
  by_cases hn : n < 16
  · simp [hn, Nat.lt_trans hn]
  · simp [hn, BitVec.getLsbD_of_ge imm n (by omega)]

theorem State.result_bits (s : State) {v : Word} {f : Nat → Bool} (r : Reg) (h : ∀ n, n < 32 → v.getLsbD n = f n) :
    ∃ t u, s.result r v = .next t ∧ ResultEffect s t r u ∧ ∀ n, n < 32 → u.getLsbD n = f n := by
  obtain ⟨t, ht, heffect⟩ := s.result_effect r v
  exact ⟨t, v, ht, heffect, h⟩

/-- Settles O45: each bit of the result is that of the operands. -/
theorem bitwiseResults : Obligations.BitwiseResults := by
  unfold Obligations.BitwiseResults
  intro s rd rs rt imm x y z gives
  refine ⟨s.result_bits rd fun n _ => ?_, s.result_bits rd fun n _ => ?_, s.result_bits rd fun n _ => ?_,
    s.result_bits rd fun n hn => ?_, s.result_bits rd fun n _ => ?_, s.result_bits rd fun n _ => ?_,
    s.result_bits rd fun n _ => ?_⟩
  · exact BitVec.getLsbD_and
  · exact BitVec.getLsbD_or
  · exact BitVec.getLsbD_xor
  · rw [BitVec.getLsbD_not, BitVec.getLsbD_or, decide_eq_true hn, Bool.true_and]
  · rw [BitVec.getLsbD_and, getLsbD_zextImm]
  · rw [BitVec.getLsbD_or, getLsbD_zextImm]
  · rw [BitVec.getLsbD_xor, getLsbD_zextImm]

theorem State.result_flag (s : State) {c : Prop} [Decidable c] (r : Reg) :
    ∃ t v, s.result r (flagWord (decide c)) = .next t ∧ ResultEffect s t r v ∧ (c → v = 1) ∧ (¬c → v = 0) := by
  obtain ⟨t, ht, heffect⟩ := s.result_effect r (flagWord (decide c))
  exact ⟨t, _, ht, heffect, fun h => by simp [flagWord, h], fun h => by simp [flagWord, h]⟩

theorem sextImm_toNat (imm : Half) :
    (sextImm imm).toNat = if imm.toNat < 0x8000 then imm.toNat else imm.toNat + 0xFFFF0000 := by
  have hsext := sextImm_toInt imm
  have himm := imm.isLt
  rw [BitVec.toInt_eq_toNat_cond, BitVec.toInt_eq_toNat_cond] at hsext
  split at hsext <;> split at hsext <;> split <;> omega

/-- Settles O46: the flag of a comparison of numbers, with the immediate extended. -/
theorem comparisonResults : Obligations.ComparisonResults := by
  unfold Obligations.ComparisonResults
  intro s rd rs rt imm gives
  refine ⟨s.result_flag rd, s.result_flag rd, ?_, ?_⟩
  · rw [← sextImm_toInt]
    exact s.result_flag rd
  · rw [← sextImm_toNat]
    exact s.result_flag rd

/-! ## Constants -/

theorem upperImm_toNat (imm : Half) : (upperImm imm).toNat = imm.toNat * 2 ^ 16 := by
  rw [upperImm, toNat_append_eq_add, BitVec.toNat_ofNat]
  omega

theorem getLsbD_upperImm (imm : Half) (n : Nat) :
    (upperImm imm).getLsbD n = (!decide (n < 16) && imm.getLsbD (n - 16)) := by
  refine (BitVec.getLsbD_append (x := imm) (y := 0#16)).trans ?_
  by_cases hn : n < 16 <;> simp [hn]

/-- The two halves of a constant put together. -/
theorem upperImm_or_zextImm (c : Word) : upperImm (c.extractLsb' 16 16) ||| zextImm (c.extractLsb' 0 16) = c := by
  refine BitVec.eq_of_getLsbD_eq fun n hn => ?_
  rw [BitVec.getLsbD_or, getLsbD_upperImm, getLsbD_zextImm, BitVec.getLsbD_extractLsb', BitVec.getLsbD_extractLsb']
  by_cases hlow : n < 16
  · simp [hlow]
  · simp [hlow, show n - 16 < 16 by omega, show 16 + (n - 16) = n by omega]

/-- Settles O47: lui leaves the low half 0, which ori fills. -/
theorem luiThenOriBuildsConstant : Obligations.LuiThenOriBuildsConstant := by
  unfold Obligations.LuiThenOriBuildsConstant
  intro s rt c
  obtain ⟨t, hlui, hteffect⟩ := s.result_effect rt (upperImm (c.extractLsb' 16 16))
  obtain ⟨u, hori, hueffect⟩ := t.result_effect rt (t.x rt ||| zextImm (c.extractLsb' 0 16))
  refine ⟨t, u, _, _, hlui, hteffect, ?_, hori, hueffect, fun hrt => ?_⟩
  · have hc := c.isLt
    rw [upperImm_toNat, BitVec.extractLsb'_toNat, Nat.shiftRight_eq_div_pow]
    omega
  · obtain ⟨⟨htres, _⟩, _⟩ := hteffect
    obtain ⟨⟨hures, _⟩, _⟩ := hueffect
    rw [hures hrt, htres hrt, upperImm_or_zextImm]

/-! ## Shifts -/

theorem shl_toNat (v : Word) (n : Nat) : (shl v n).toNat = v.toNat * 2 ^ n % 2 ^ 32 := by
  rw [shl, BitVec.toNat_shiftLeft, Nat.shiftLeft_eq]

theorem shrl_toNat (v : Word) (n : Nat) : (shrl v n).toNat = v.toNat / 2 ^ n := by
  rw [shrl, BitVec.toNat_ushiftRight, Nat.shiftRight_eq_div_pow]

theorem shra_toInt (v : Word) (n : Nat) : (shra v n).toInt = v.toInt.fdiv (2 ^ n) := by
  rw [shra, BitVec.toInt_sshiftRight, Int.shiftRight_eq_div_pow, Int.fdiv_eq_ediv_of_nonneg _ (by positivity)]
  norm_cast

theorem shiftAmount_eq_mod (v : Word) : shiftAmount v = v.toNat % 32 := by
  rw [shiftAmount, BitVec.extractLsb'_toNat, Nat.shiftRight_zero]

/-- The three shifts, by any distance. -/
theorem State.shift_results (s : State) (r : Reg) (v : Word) (n : Nat) :
    (∃ t w, s.result r (shl v n) = .next t ∧ w.toNat = v.toNat * 2 ^ n % 2 ^ 32 ∧ ResultEffect s t r w) ∧
    (∃ t w, s.result r (shrl v n) = .next t ∧ w.toNat = v.toNat / 2 ^ n ∧ ResultEffect s t r w) ∧
    (∃ t w, s.result r (shra v n) = .next t ∧ w.toInt = v.toInt.fdiv (2 ^ n) ∧ ResultEffect s t r w) := by
  obtain ⟨t, ht, hteffect⟩ := s.result_effect r (shl v n)
  obtain ⟨u, hu, hueffect⟩ := s.result_effect r (shrl v n)
  obtain ⟨w, hw, hweffect⟩ := s.result_effect r (shra v n)
  exact ⟨⟨t, _, ht, shl_toNat v n, hteffect⟩, ⟨u, _, hu, shrl_toNat v n, hueffect⟩,
    ⟨w, _, hw, shra_toInt v n, hweffect⟩⟩

/-- Settles O48: the three shifts by a constant distance. -/
theorem constantShifts : Obligations.ConstantShifts := by
  unfold Obligations.ConstantShifts
  exact fun s rd rt shamt => s.shift_results rd (s.x rt) shamt.toNat

/-- Settles O49: the three shifts by the low five bits of the register. -/
theorem variableShifts : Obligations.VariableShifts := by
  unfold Obligations.VariableShifts
  intro s rd rt rs
  rw [← shiftAmount_eq_mod]
  exact s.shift_results rd (s.x rt) (shiftAmount (s.x rs))

end Sys2Proof.Machine
end

section
/-! Proofs for multiplication and division, HI and LO (O50 to O55). -/

namespace Sys2Proof.Machine

/-! ## Moves -/

/-- Settles O54: the effect of a result, and then the guard that the move starts. -/
theorem movesFromHiLo : Obligations.MovesFromHiLo := by
  unfold Obligations.MovesFromHiLo
  intro s rd
  obtain ⟨⟨hreg, hhilo, hmem, ⟨hhi, hlo⟩, hrest, hpc⟩, _⟩ := s.result_next _ rd s.hi rfl
  obtain ⟨⟨hreg', hhilo', hmem', ⟨hhi', hlo'⟩, hrest', hpc'⟩, _⟩ := s.result_next _ rd s.lo rfl
  exact ⟨⟨_, rfl, hreg, hhilo, hmem, hrest, rfl, hlo, hpc⟩, ⟨_, rfl, hreg', hhilo', hmem', hrest', hhi', rfl, hpc'⟩⟩

/-- Settles O55: each is the write of one register under its own check. -/
theorem movesToHiLo : Obligations.MovesToHiLo := by
  unfold Obligations.MovesToHiLo
  exact fun s rs => ⟨s.writeHi_effect (s.x rs), s.writeLo_effect (s.x rs)⟩

/-! ## Products -/

theorem dword_toNat_split (p : DWord) :
    (p.extractLsb' 32 32).toNat * 2 ^ 32 + (p.extractLsb' 0 32).toNat = p.toNat := by
  have hp := p.isLt
  simp only [BitVec.extractLsb'_toNat, Nat.shiftRight_eq_div_pow]
  omega

theorem dword_toInt_split (p : DWord) :
    (p.extractLsb' 32 32).toInt * 2 ^ 32 + (p.extractLsb' 0 32).toNat = p.toInt := by
  have hp := dword_toNat_split p
  have hhi := (p.extractLsb' 32 32).isLt
  have hlo := (p.extractLsb' 0 32).isLt
  rw [BitVec.toInt_eq_toNat_cond, BitVec.toInt_eq_toNat_cond]
  split <;> split <;> omega

theorem toInt_signedProduct (v w : Word) : (BitVec.ofInt 64 (v.toInt * w.toInt)).toInt = v.toInt * w.toInt := by
  have hle : v.toInt * w.toInt ≤ 2 ^ 62 := BitVec.toInt_mul_toInt_le
  have hge : -2 ^ 62 ≤ v.toInt * w.toInt := BitVec.le_toInt_mul_toInt
  exact BitVec.toInt_ofInt_eq_self (by decide) (by omega) (by omega)

theorem toNat_unsignedProduct (v w : Word) : (BitVec.ofNat 64 (v.toNat * w.toNat)).toNat = v.toNat * w.toNat := by
  have hlt : v.toNat * w.toNat < 2 ^ 32 * 2 ^ 32 := Nat.mul_lt_mul'' v.isLt w.isLt
  exact Nat.mod_eq_of_lt hlt

/-- Settles O50: the exact product fits 64 bits, and HI and LO are its halves. -/
theorem productsAreExact : Obligations.ProductsAreExact := by
  unfold Obligations.ProductsAreExact
  intro s rs rt hhi hlo
  obtain ⟨t, hmult, hteffect⟩ := s.writeHiLo_effect _ _ hhi hlo
  obtain ⟨u, hmultu, hueffect⟩ := s.writeHiLo_effect _ _ hhi hlo
  exact ⟨⟨t, _, _, hmult, hteffect, (dword_toInt_split _).trans (toInt_signedProduct _ _)⟩,
    ⟨u, _, _, hmultu, hueffect, (dword_toNat_split _).trans (toNat_unsignedProduct _ _)⟩⟩

/-! ## Divisions -/

/-- A quotient and a remainder where DIV_RESULT_PLACEMENT puts them (R163). -/
theorem State.writeQuotient_effect (s : State) (q r : Word) (hhi : s.hiGuard = 0) (hlo : s.loGuard = 0) :
    ∃ t hi lo, s.writeQuotient q r = .next t ∧ HiLoEffect s t hi lo ∧
      (s.params.divPlacement = .asPrinted → hi = q ∧ lo = r) ∧
      (s.params.divPlacement = .conventional → hi = r ∧ lo = q) := by
  unfold State.writeQuotient
  cases s.params.divPlacement with
  | asPrinted =>
    obtain ⟨t, ht, heffect⟩ := s.writeHiLo_effect q r hhi hlo
    exact ⟨t, q, r, ht, heffect, fun _ => ⟨rfl, rfl⟩, nofun⟩
  | conventional =>
    obtain ⟨t, ht, heffect⟩ := s.writeHiLo_effect r q hhi hlo
    exact ⟨t, r, q, ht, heffect, nofun, fun _ => ⟨rfl, rfl⟩⟩

/-- Only -2^31 / -1 has a quotient that does not fit. -/
theorem toInt_sdiv_of_not_open {v w : Word} (h : ¬(v.toInt = -2 ^ 31 ∧ w.toInt = -1)) :
    (v.sdiv w).toInt = v.toInt.tdiv w.toInt := by
  refine BitVec.toInt_sdiv_of_ne_or_ne v w (not_and_or.mp ?_)
  rintro ⟨rfl, rfl⟩
  exact h (by decide)

theorem ofInt_tdiv {v w : Word} (h : ¬(v.toInt = -2 ^ 31 ∧ w.toInt = -1)) :
    BitVec.ofInt 32 (v.toInt.tdiv w.toInt) = v.sdiv w := by
  rw [← toInt_sdiv_of_not_open h, BitVec.ofInt_toInt]

theorem ofInt_tmod (v w : Word) : BitVec.ofInt 32 (v.toInt - v.toInt.tdiv w.toInt * w.toInt) = v.srem w := by
  rw [mul_comm, ← Int.tmod_def, ← BitVec.toInt_srem, BitVec.ofInt_toInt]

theorem tmod_sign (a b : Int) : a.tmod b = 0 ∨ (0 < a.tmod b ↔ 0 < a) := by
  by_cases h : b ∣ a
  · exact .inl (Int.tmod_eq_zero_of_dvd h)
  · have hsign : (a.tmod b).sign = a.sign := by rw [Int.sign_tmod, if_neg h]
    exact .inr (by rw [← Int.sign_eq_one_iff_pos, hsign, Int.sign_eq_one_iff_pos])

theorem execDiv_eq_writeQuotient {s : State} {rs rt : Reg} (hb : (s.x rt).toInt ≠ 0)
    (hopen : ¬((s.x rs).toInt = -2 ^ 31 ∧ (s.x rt).toInt = -1)) :
    execDiv rs rt s = s.writeQuotient ((s.x rs).sdiv (s.x rt)) ((s.x rs).srem (s.x rt)) := by
  rw [execDiv, if_neg (not_or.mpr ⟨hb, hopen⟩), ofInt_tdiv hopen, ofInt_tmod]

/-- Settles O51: the quotient and the remainder are those of truncation, which fit 32 bits where the division is not
open. -/
theorem signedDivision : Obligations.SignedDivision := by
  unfold Obligations.SignedDivision
  intro s rs rt a b hhi hlo hb hopen
  obtain ⟨t, hi, lo, hquotient, heffect, hplaced⟩ :=
    s.writeQuotient_effect ((s.x rs).sdiv (s.x rt)) ((s.x rs).srem (s.x rt)) hhi hlo
  have hq : ((s.x rs).sdiv (s.x rt)).toInt = a.tdiv b := toInt_sdiv_of_not_open hopen
  have hr : ((s.x rs).srem (s.x rt)).toInt = a.tmod b := BitVec.toInt_srem _ _
  refine ⟨t, hi, lo, _, _, (execDiv_eq_writeQuotient hb hopen).trans hquotient, heffect, ?_, ?_, ?_, hplaced⟩
  · rw [hq, hr, Int.tdiv_mul_add_tmod]
  · rw [hr, Int.natAbs_tmod]
    exact Nat.mod_lt _ (Int.natAbs_pos.mpr hb)
  · rw [hr]
    exact tmod_sign a b

theorem ofNat_div (v w : Word) : BitVec.ofNat 32 (v.toNat / w.toNat) = v / w := by
  rw [← BitVec.toNat_udiv, BitVec.ofNat_toNat, BitVec.setWidth_eq]

theorem ofNat_mod (v w : Word) : BitVec.ofNat 32 (v.toNat - v.toNat / w.toNat * w.toNat) = v % w := by
  rw [mul_comm, ← Nat.mod_eq_sub_mul_div, ← BitVec.toNat_umod, BitVec.ofNat_toNat, BitVec.setWidth_eq]

theorem execDivu_eq_writeQuotient {s : State} {rs rt : Reg} (hb : (s.x rt).toNat ≠ 0) :
    execDivu rs rt s = s.writeQuotient (s.x rs / s.x rt) (s.x rs % s.x rt) := by
  rw [execDivu, if_neg hb, ofNat_div, ofNat_mod]

/-- Settles O52: the quotient and the remainder of natural numbers fit 32 bits. -/
theorem unsignedDivision : Obligations.UnsignedDivision := by
  unfold Obligations.UnsignedDivision
  intro s rs rt a b hhi hlo hb
  obtain ⟨t, hi, lo, hquotient, heffect, hplaced⟩ :=
    s.writeQuotient_effect (s.x rs / s.x rt) (s.x rs % s.x rt) hhi hlo
  refine ⟨t, hi, lo, _, _, (execDivu_eq_writeQuotient hb).trans hquotient, heffect, ?_, ?_, hplaced⟩
  · rw [BitVec.toNat_udiv, BitVec.toNat_umod, mul_comm, Nat.div_add_mod]
  · rw [BitVec.toNat_umod]
    exact Nat.mod_lt _ (Nat.pos_of_ne_zero hb)

/-- The division with open values. -/
theorem State.writeHiLoAny_effect (s : State) (hhi : s.hiGuard = 0) (hlo : s.loGuard = 0) :
    ∃ t, s.writeHiLoAny = .next t ∧ t.hi = Config.any32 s.draws ∧ t.lo = Config.any32 (s.draws + 1) ∧
      t.draws = s.draws + 2 ∧ RegsSame s t ∧ MemSame s t ∧ GuardsRun s t ∧ t.params = s.params ∧ t.fault = s.fault ∧
      t.pc = s.pc + 4 := by
  obtain ⟨t, ht, hvhi, hvlo, hregs, hmem, hguards, ⟨hparams, hfault, hdraws⟩, hpc⟩ :=
    ({ s with draws := s.draws + 2 } : State).writeHiLo_effect _ _ hhi hlo
  exact ⟨t, ht, hvhi, hvlo, hdraws, hregs, hmem, hguards, hparams, hfault, hpc⟩

/-- Settles O53: both open divisions write the next two draws. -/
theorem openDivisionGoesOn : Obligations.OpenDivisionGoesOn := by
  unfold Obligations.OpenDivisionGoesOn
  intro s rs rt hhi hlo goesOn
  obtain ⟨t, ht, hrest⟩ := s.writeHiLoAny_effect hhi hlo
  refine ⟨fun hopen => ⟨t, (if_pos hopen).trans ht, hrest⟩, fun hzero => ⟨t, (if_pos ?_).trans ht, hrest⟩⟩
  rw [hzero]
  rfl

end Sys2Proof.Machine
end

section
/-! Proofs for the branches and jumps (O56 to O59). -/

namespace Sys2Proof.Machine

/-! ## The effect of a transfer -/

theorem State.goto_effect (s : State) (target : Word) : JumpEffect s (s.goto target) target :=
  ⟨rfl, fun _ => rfl, ⟨rfl, rfl⟩, ⟨fun _ => rfl, rfl⟩, ⟨rfl, rfl⟩, ⟨rfl, rfl, rfl⟩⟩

/-- All that a linking jump does beside the pc. -/
theorem State.link_effect (s : State) (target : Word) :
    let t := (s.setX ra s.npc).goto target
    RegWrite s t 31 (s.pc + 4) ∧ HiLoSame s t ∧ MemSame s t ∧ GuardsRun s t ∧ RestSame s t :=
  ⟨s.setX_regWrite ra s.npc, by simp [HiLoSame], by simp [MemSame], by simp [GuardsRun], by simp [RestSame]⟩

theorem State.link_ra (s : State) (target : Word) : ((s.setX ra s.npc).goto target).x 31 = s.pc + 4 := by
  obtain ⟨⟨hra, _⟩, _⟩ := s.link_effect target
  exact hra (by decide)

theorem State.npc_toNat (s : State) : s.npc.toNat = (s.pc.toNat + 4) % 2 ^ 32 := BitVec.toNat_add s.pc 4

theorem State.branchTarget_npc_toNat (s : State) (imm : Half) :
    ((branchTarget s.npc imm).toNat : Int) = (s.pc.toNat + 4 + 4 * imm.toInt) % 2 ^ 32 := by
  rw [branchTarget_toNat, s.npc_toNat]
  omega

theorem State.jumpTarget_npc_toNat (s : State) (target : BitVec 26) :
    (jumpTarget s.npc target).toNat = (s.pc.toNat + 4) % 2 ^ 32 / 2 ^ 28 * 2 ^ 28 + 4 * target.toNat := by
  rw [jumpTarget_toNat, s.npc_toNat]

/-- A branch under a condition, taken and not. -/
theorem State.branch_effect (s : State) (c : Prop) [Decidable c] (imm : Half) :
    let target := if c then branchTarget s.npc imm else s.npc
    JumpEffect s (s.goto target) target ∧
      (c → (target.toNat : Int) = (s.pc.toNat + 4 + 4 * imm.toInt) % 2 ^ 32) ∧
      (¬c → (target.toNat : Int) = (s.pc.toNat + 4) % 2 ^ 32) := by
  refine ⟨s.goto_effect _, fun h => ?_, fun h => ?_⟩
  · rw [if_pos h, s.branchTarget_npc_toNat]
  · rw [if_neg h, s.npc_toNat]
    rfl

/-- Settles O56: the target where the condition holds, the next instruction where it does not. -/
theorem branchTargets : Obligations.BranchTargets := by
  unfold Obligations.BranchTargets
  intro s rs rt imm taken fallThrough
  obtain ⟨heffect, htaken, hnot⟩ := s.branch_effect (s.x rs ≠ s.x rt) imm
  exact ⟨⟨_, _, rfl, s.branch_effect (s.x rs = s.x rt) imm⟩,
    ⟨_, _, rfl, heffect, htaken, fun heq => hnot (not_not_intro heq)⟩⟩

/-- Settles O57: the target has the upper bits of pc + 4 and the field below them. -/
theorem regionJumps : Obligations.RegionJumps := by
  unfold Obligations.RegionJumps
  intro s target n
  exact ⟨⟨_, _, rfl, s.goto_effect _, s.jumpTarget_npc_toNat target⟩,
    ⟨_, rfl, s.jumpTarget_npc_toNat target, s.link_effect _⟩⟩

/-! ## Register jumps -/

theorem exec_jalr_of_ne {rs : Reg} (h : rs ≠ 31) (s : State) :
    exec (.jalr rs) s = .next ((s.setX ra s.npc).goto (s.x rs)) := if_neg h

theorem exec_jalr_ra (s : State) : exec (.jalr 31) s = .fault (.unpredictableOperands 0x03E0F809) := by
  rfl

theorem step_misaligned {s : State} (hfault : s.fault = none) (hpc : s.pc ≠ s.params.haltPc)
    (hmis : s.pc.toNat % 4 ≠ 0) : step s = .fault (.addressError .fetch s.pc) :=
  step_of_fetchWord_error hfault hpc (State.fetchWord_misaligned hmis)

/-- Settles O58: the target is the register, whose misaligned value the next fetch refuses. -/
theorem registerJumps : Obligations.RegisterJumps := by
  unfold Obligations.RegisterJumps
  intro s rs faultsNext
  have hjr : faultsNext (s.goto (s.x rs)) := step_misaligned (s := s.goto (s.x rs))
  refine ⟨⟨_, rfl, s.goto_effect _, hjr⟩, fun hrs => ?_, exec_jalr_ra s⟩
  obtain ⟨hlink, hhilo, hmem, hguards, hrest⟩ := s.link_effect (s.x rs)
  have hjalr : faultsNext ((s.setX ra s.npc).goto (s.x rs)) := fun hfault hpc hmis =>
    step_misaligned (s := (s.setX ra s.npc).goto (s.x rs)) (by simpa using hfault) (by simpa using hpc) hmis
  exact ⟨_, exec_jalr_of_ne hrs s, rfl, hlink, hhilo, hmem, hguards, hrest, hjalr⟩

/-- Settles O59: the link is pc + 4, and jr goes to it. -/
theorem returnComesBackAfterCall : Obligations.ReturnComesBackAfterCall := by
  unfold Obligations.ReturnComesBackAfterCall
  intro s t u i hcall h hlink
  refine ⟨_, rfl, hlink.trans ?_⟩
  rcases hcall with ⟨target, rfl⟩ | ⟨rs, rfl⟩
  · obtain rfl := Host.Outcome.next.inj h
    exact s.link_ra _
  · rw [execJalr_next h]
    exact s.link_ra _

end Sys2Proof.Machine
end

section
/-! Proofs for the variant with a delay slot (O60): each instruction in terms of the machine without slots. -/

namespace Sys2Proof.Machine

/-! ## Outside the transfers -/

theorem delayAfter_of_not_transfer {i : Instr} (d : DelayState) (t : State) (h : isTransfer i = false) :
    delayAfter d i t = { base := { t with pc := d.next }, next := d.next + 4, inSlot := false } := by
  cases i with
  | beq | bne | j | jr | jal | jalr => contradiction
  | _ => rfl

theorem delayExec_of_next {i : Instr} {d : DelayState} {t : State} (hslot : d.inSlot = false ∨ isTransfer i = false)
    (h : exec i d.base = .next t) : delayExec i d = .next (delayAfter d i t) :=
  (delayExec_next i d _).mpr ⟨hslot, t, h, rfl⟩

theorem delayExec_of_fault {i : Instr} {d : DelayState} {f : Fault} (hslot : d.inSlot = false ∨ isTransfer i = false)
    (h : exec i d.base = .fault f) : delayExec i d = .fault f := by
  have hnot : ¬(d.inSlot && hasDelaySlot i) = true := by
    rw [hasDelaySlot_eq_isTransfer]
    rcases hslot with hs | hs <;> simp [hs]
  rw [delayExec, if_neg hnot, h]

theorem delayExec_inSlot {i : Instr} {d : DelayState} (hslot : d.inSlot = true) (h : isTransfer i = true) :
    delayExec i d = .fault (.unpredictableOperands (encode i)) := by
  rw [delayExec, hasDelaySlot_eq_isTransfer, hslot, h]
  rfl

/-- The one fault of a branch or jump is jalr's, which is the fault of a slot too. -/
theorem exec_transfer_fault {i : Instr} {s : State} {f : Fault} (h : exec i s = .fault f)
    (htransfer : isTransfer i = true) :
    f = .unpredictableOperands (encode i) := by
  cases i with
  | beq | bne | j | jr | jal => contradiction
  | jalr rs =>
    by_cases hrs : rs = 31
    · exact (Host.Outcome.fault.inj ((if_pos hrs).symm.trans h)).symm
    · exact absurd ((exec_jalr_of_ne hrs s).symm.trans h) nofun
  | _ => contradiction

theorem delayStep_of_runs {d : DelayState} {i : Instr} (h : d.base.runs i) : delayStep d = delayExec i d := by
  obtain ⟨hfault, hpc, hfetch⟩ := h
  simp [delayStep, hfault, State.ended_eq_false hpc, hfetch]

theorem delayStep_of_step_fault {d : DelayState} {f : Fault} (h : step d.base = .fault f) : delayStep d = .fault f := by
  rcases step_cases d.base with ⟨r, hfault, hstep⟩ | ⟨_, _, hstep⟩ | ⟨hfault, hpc, g, hfetch, hstep⟩ | ⟨i, hruns, hstep⟩
  · obtain rfl := Host.Outcome.fault.inj (hstep.symm.trans h)
    rw [delayStep, hfault]
  · exact absurd (hstep.symm.trans h) nofun
  · obtain rfl := Host.Outcome.fault.inj (hstep.symm.trans h)
    simp [delayStep, hfault, State.ended_eq_false hpc, hfetch]
  · have hexec := hstep.symm.trans h
    rw [delayStep_of_runs hruns]
    by_cases hslot : d.inSlot = true ∧ isTransfer i = true
    · rw [exec_transfer_fault hexec hslot.right]
      exact delayExec_inSlot hslot.left hslot.right
    · exact delayExec_of_fault ((not_and_or.mp hslot).imp eq_false_of_ne_true eq_false_of_ne_true) hexec

/-! ## A branch or jump outside a slot -/

/-- `i` goes on to its slot, with `dest` behind it and the registers as `regs` says; then the slot's instruction runs
and `dest` follows. -/
def DelayTransfers (d : DelayState) (i : Instr) (dest : Int) (regs : State → Prop) : Prop :=
  ∃ e, delayExec i d = .next e ∧ e.base.pc = d.next ∧ (e.next.toNat : Int) = dest ∧ e.inSlot = true ∧ regs e.base ∧
    HiLoSame d.base e.base ∧ MemSame d.base e.base ∧ GuardsRun d.base e.base ∧ RestSame d.base e.base ∧
    ∀ k t, isTransfer k = false → exec k e.base = .next t →
      ∃ f, delayExec k e = .next f ∧ f.base.pc = e.next ∧ f.next = e.next + 4 ∧ f.inSlot = false

theorem delayExec_slot {e : DelayState} {k : Instr} {t : State} (hk : isTransfer k = false)
    (h : exec k e.base = .next t) :
    delayExec k e = .next { base := { t with pc := e.next }, next := e.next + 4, inSlot := false } := by
  rw [delayExec_of_next (.inr hk) h, delayAfter_of_not_transfer e t hk]

theorem DelayTransfers.of_next {d : DelayState} {i : Instr} {t : State} {dest : Int} {regs : State → Prop}
    (hslot : d.inSlot = false) (htransfer : isTransfer i = true) (h : exec i d.base = .next t)
    (heffect : HiLoSame d.base t ∧ MemSame d.base t ∧ GuardsRun d.base t ∧ RestSame d.base t)
    (hregs : regs (delayAfter d i t).base) (hdest : ((delayAfter d i t).next.toNat : Int) = dest) :
    DelayTransfers d i dest regs := by
  obtain ⟨hhilo, ⟨hbyte, hdirty⟩, hguards, hrest⟩ := heffect
  refine ⟨delayAfter d i t, delayExec_of_next (.inl hslot) h, rfl, hdest,
    (hasDelaySlot_eq_isTransfer i).trans htransfer, hregs, ?_, ?_, ?_, ?_, fun k u hk hu => ?_⟩
  · simpa [HiLoSame, delayAfter] using hhilo
  · exact ⟨fun a => (congrArg (Memory.read · a.toNat) (delayLink_mem i d.base.pc t)).trans (hbyte a),
      (delayLink_dirty i d.base.pc t).trans hdirty⟩
  · simpa [GuardsRun, delayAfter] using hguards
  · simpa [RestSame, delayAfter] using hrest
  · exact ⟨_, delayExec_slot hk hu, rfl, rfl, rfl⟩

/-- For the transfers that link nothing. -/
theorem DelayTransfers.of_goto {d : DelayState} {i : Instr} {target : Word} {dest : Int} (hslot : d.inSlot = false)
    (htransfer : isTransfer i = true) (h : exec i d.base = .next (d.base.goto target))
    (hlink : ∀ pc t, delayLink i pc t = t)
    (hdest : ((if takesTarget i d.base then target else d.next + 4).toNat : Int) = dest) :
    DelayTransfers d i dest (RegsSame d.base) := by
  obtain ⟨_, _, heffect⟩ := d.base.goto_effect target
  refine .of_next hslot htransfer h heffect (fun q => ?_) hdest
  rw [delayAfter, hlink]
  rfl

/-- For jal and jalr, whose link pc + 8 takes the place of the machine's pc + 4. -/
theorem DelayTransfers.of_link {d : DelayState} {i : Instr} {target : Word} {dest : Int} (hslot : d.inSlot = false)
    (htransfer : isTransfer i = true) (h : exec i d.base = .next ((d.base.setX ra d.base.npc).goto target))
    (hlink : ∀ pc t, delayLink i pc t = t.setX ra (pc + 8))
    (hdest : ((if takesTarget i d.base then target else d.next + 4).toNat : Int) = dest) :
    DelayTransfers d i dest fun t => RegWrite d.base t 31 (d.base.pc + 8) := by
  obtain ⟨⟨_, hregs⟩, heffect⟩ := d.base.link_effect target
  refine .of_next hslot htransfer h heffect ?_ hdest
  rw [delayAfter, hlink]
  exact ⟨State.x_setX_self _ ra _, fun q hq => (State.x_setX_other _ ra q _ hq).trans (hregs q hq)⟩

theorem delayBranch_taken {d : DelayState} {i : Instr} {imm : Half} (hslot : d.inSlot = false)
    (htransfer : isTransfer i = true) (hlink : ∀ pc t, delayLink i pc t = t) (htaken : takesTarget i d.base = true)
    (h : exec i d.base = .next (d.base.goto (branchTarget d.base.npc imm))) :
    DelayTransfers d i ((d.base.pc.toNat + 4 + 4 * imm.toInt) % 2 ^ 32) (RegsSame d.base) :=
  .of_goto hslot htransfer h hlink (by rw [if_pos htaken, d.base.branchTarget_npc_toNat])

theorem delayBranch_untaken {d : DelayState} {i : Instr} (hslot : d.inSlot = false)
    (htransfer : isTransfer i = true) (hlink : ∀ pc t, delayLink i pc t = t) (hnot : ¬takesTarget i d.base = true)
    (h : exec i d.base = .next (d.base.goto d.base.npc)) :
    DelayTransfers d i ((d.next.toNat + 4) % 2 ^ 32) (RegsSame d.base) :=
  .of_goto hslot htransfer h hlink (by rw [if_neg hnot, BitVec.toNat_add]; rfl)

theorem exec_beq_goto {s : State} {rs rt : Reg} {imm : Half} {target : Word}
    (h : (if s.x rs = s.x rt then branchTarget s.npc imm else s.npc) = target) :
    exec (.beq rs rt imm) s = .next (s.goto target) := h ▸ rfl

theorem exec_bne_goto {s : State} {rs rt : Reg} {imm : Half} {target : Word}
    (h : (if s.x rs ≠ s.x rt then branchTarget s.npc imm else s.npc) = target) :
    exec (.bne rs rt imm) s = .next (s.goto target) := h ▸ rfl

theorem State.jumpTarget_npc_toInt (s : State) (target : BitVec 26) :
    ((jumpTarget s.npc target).toNat : Int) =
      (s.pc.toNat + 4) % 2 ^ 32 / 2 ^ 28 * 2 ^ 28 + 4 * target.toNat := by
  rw [s.jumpTarget_npc_toNat]
  push_cast
  rfl

/-- Settles O60: a transfer keeps the effect of the machine without slots but for the pc and the link, and holds its
target back. -/
theorem delaySlotVariant : Obligations.DelaySlotVariant := by
  unfold Obligations.DelaySlotVariant
  refine ⟨fun _ => rfl, fun d i => delayStep_of_runs, fun d i t hi h => ?_, fun d i f => delayExec_of_fault,
    fun d f => delayStep_of_step_fault, fun d i => delayExec_inSlot, ?_⟩
  · rw [delayExec_of_next (.inr hi) h, delayAfter_of_not_transfer d t hi]
  intro d rs rt imm target hslot x branch onward region transfers keeps links
  refine ⟨fun heq => ?_, fun hne => ?_, fun hne => ?_, fun heq => ?_, ?_, ?_, ?_, fun hrs => ?_,
    delayExec_of_fault (.inl hslot) (exec_jalr_ra d.base)⟩
  · exact delayBranch_taken hslot rfl (fun _ _ => rfl) (beq_iff_eq.mpr heq) (exec_beq_goto (if_pos heq))
  · exact delayBranch_untaken hslot rfl (fun _ _ => rfl) (fun h => hne (beq_iff_eq.mp h)) (exec_beq_goto (if_neg hne))
  · exact delayBranch_taken hslot rfl (fun _ _ => rfl) (bne_iff_ne.mpr hne) (exec_bne_goto (if_pos hne))
  · exact delayBranch_untaken hslot rfl (fun _ _ => rfl) (fun h => bne_iff_ne.mp h heq)
      (exec_bne_goto (if_neg (not_not_intro heq)))
  · exact DelayTransfers.of_goto hslot rfl rfl (fun _ _ => rfl) (d.base.jumpTarget_npc_toInt target)
  · exact DelayTransfers.of_goto hslot rfl rfl (fun _ _ => rfl) rfl
  · exact DelayTransfers.of_link hslot rfl rfl (fun _ _ => rfl) (d.base.jumpTarget_npc_toInt target)
  · exact DelayTransfers.of_link hslot rfl (exec_jalr_of_ne hrs d.base) (fun _ _ => rfl) rfl

end Sys2Proof.Machine
end
